-- ==== Sys2Proof/Word.lean ====
section
/-! DEFINITION. The word types of PSN-CORE and the small named types the instructions are written with. -/

namespace Sys2Proof

/-- A command word or a response word: 32 bits, bit 31 the most significant (R34, R41). -/
abbrev Word := BitVec 32

/-- A 10-bit register, ROM word or vector numeral: bit 9 is the front (the source's element 0), bit 0 the rear
(element 9), as R6 and R7 fix it. -/
abbrev Reg := BitVec 10

/-- The two LFSR engines of a block (R2, R11). -/
inductive EngineId where
  /-- Engine 1, LFSR1, command field `u = 0`. -/
  | lfsr1
  /-- Engine 2, LFSR2, command field `u = 1`. -/
  | lfsr2
  deriving DecidableEq, Repr

/-- A chip: an element of the two-element set of the integers −1 and +1 (R9). -/
inductive Chip where
  | minusOne
  | plusOne
  deriving DecidableEq, Repr

/-- The seed ROM: 32 words of 10 bits (R22). The word of SV id `sv` stands at place `sv - 1`. -/
abbrev SeedTable := Vector Reg 32

end Sys2Proof
end

