-- ==== Sys2Proof/Config.lean ====
section
/-! DEFINITION. The structural parameters of PSN-CORE (R5). The spec fixes each of them; none is left open, so there
is no free value here. The constants and the default seed table stand in Machine/Params.lean. The value of `SEED_TABLE`,
the one open parameter, is carried in `State.seedTable`. -/

namespace Sys2Proof

/-- `N`: the length of a shift register and of a tap mask (R5). -/
abbrev Config.vectorLength : Nat := 10

/-- The least SV id (R5: the domain is 1 to `NSV` inclusive). -/
abbrev Config.svFirst : Nat := 1

/-- `NSV`: the greatest SV id (R5). -/
abbrev Config.svLast : Nat := 32

/-- The greatest declared length a command word carries in its 4-bit fields (R35). -/
abbrev Config.lengthFieldMax : Nat := 15

/-- The greatest SV id a command word carries in its 8-bit field, `SVW` = 8 (R5, R37). -/
abbrev Config.svFieldMax : Nat := 255

end Sys2Proof
end

