-- ==== Sys2Proof/Syntax.lean ====
section
/-! DEFINITION. The command set: one constructor per row of spec/opcode_table.json (R34, R72). -/

namespace Sys2Proof

/-- The four commands. Declared lengths and the SV id are the unsigned integers of R39 (they are compared, never
reduced); the two vectors are the 10-bit numerals of R7. -/
inductive Instr where
  /-- `LFSR.LOAD e, len=slen:seed, len=tlen:taps`, format L (R35, R48). -/
  | lfsrLoad (e : EngineId) (slen tlen : Nat) (seed taps : Reg)
  /-- `LFSR.STEP e`, format U (R36, R49). -/
  | lfsrStep (e : EngineId)
  /-- `CA.INIT sv`, format S (R37, R57). -/
  | caInit (sv : Nat)
  /-- `CA.NEXT`, format N (R38, R58). -/
  | caNext
  deriving DecidableEq, Repr

end Sys2Proof
end

