-- ==== Sys2Proof/WellFormed.lean ====
section
/-! DEFINITION. Which instructions a command word can carry: each operand fits its field (R35, R37, R39). -/

namespace Sys2Proof

/-- `i` fits its format: both declared lengths fit 4 bits, the SV id fits 8 bits. (A length other than 10 and an SV id
outside 1 to 32 are well-formed: the operation rejects them, not the encoding, R40.) -/
def Instr.wellFormed : Instr → Bool
  | .lfsrLoad _ slen tlen _ _ => decide (slen ≤ Config.lengthFieldMax) && decide (tlen ≤ Config.lengthFieldMax)
  | .lfsrStep _ => true
  | .caInit sv => decide (sv ≤ Config.svFieldMax)
  | .caNext => true

end Sys2Proof
end

