-- ==== Sys2Proof/Decode.lean ====
section
/-! DEFINITION. Decoding of command words (R40) and the encoder of the same formats (R35 to R38). -/

namespace Sys2Proof

/-- Why a word is illegal; either way the block raises `IllegalCommand` (R40, R63). -/
inductive Illegal where
  /-- `op` is 0, 5, 6 or 7 (R34, U1). -/
  | reservedOp
  /-- A must-be-zero bit of format U, S or N is set (R36, R37, R38, U2). -/
  | reservedBit
  deriving DecidableEq, Repr

/-- The engine of a field `u`: 0 is engine 1, 1 is engine 2 (`e = u + 1`, R11, R39). -/
def engineOfBit (u : Bool) : EngineId := if u then .lfsr2 else .lfsr1

/-- The field `u` of an engine (`u = e - 1`, R43). -/
def bitOfEngine : EngineId → Bool
  | .lfsr1 => false
  | .lfsr2 => true

/-- The operation field, bits 31:29 (R34). -/
def opField (w : Word) : BitVec 3 := w.extractLsb' 29 3

/-- The engine a word of format L or U selects with its bit 28 (R35, R36). -/
def engineField (w : Word) : EngineId := engineOfBit (w.getLsbD 28)

/-- Decoding of format L (R35): every bit is a field, so no word with this `op` is illegal. -/
def decodeLoad (w : Word) : Instr :=
  .lfsrLoad (engineField w) (w.extractLsb' 24 4).toNat (w.extractLsb' 20 4).toNat
    (w.extractLsb' 10 10) (w.extractLsb' 0 10)

/-- Decoding of format U (R36): bits 27:0 must be zero. -/
def decodeStep (w : Word) : Except Illegal Instr :=
  if w.extractLsb' 0 28 = 0 then .ok (.lfsrStep (engineField w)) else .error .reservedBit

/-- Decoding of format S (R37): bits 28:8 must be zero. -/
def decodeInit (w : Word) : Except Illegal Instr :=
  if w.extractLsb' 8 21 = 0 then .ok (.caInit (w.extractLsb' 0 8).toNat) else .error .reservedBit

/-- Decoding of format N (R38): bits 28:0 must be zero. -/
def decodeNext (w : Word) : Except Illegal Instr :=
  if w.extractLsb' 0 29 = 0 then .ok .caNext else .error .reservedBit

/-- Decoding (R40): the format is chosen by `op` (R34), and a word of no legal pattern is illegal. It reads only `w`. -/
def decode (w : Word) : Except Illegal Instr :=
  if opField w = 1 then .ok (decodeLoad w)
  else if opField w = 2 then decodeStep w
  else if opField w = 3 then decodeInit w
  else if opField w = 4 then decodeNext w
  else .error .reservedOp

/-- A field of a command word put at its place, `lo` being its lowest bit. -/
def placed {n : Nat} (x : BitVec n) (lo : Nat) : Word := x.setWidth 32 <<< lo

/-- The word of format L (R35). -/
def encodeLoad (e : EngineId) (slen tlen : Nat) (seed taps : Reg) : Word :=
  placed 1#3 29 ||| placed (BitVec.ofBool (bitOfEngine e)) 28 ||| placed (BitVec.ofNat 4 slen) 24 |||
    placed (BitVec.ofNat 4 tlen) 20 ||| placed seed 10 ||| placed taps 0

/-- The word of format U (R36). -/
def encodeStep (e : EngineId) : Word := placed 2#3 29 ||| placed (BitVec.ofBool (bitOfEngine e)) 28

/-- The word of format S (R37). -/
def encodeInit (sv : Nat) : Word := placed 3#3 29 ||| placed (BitVec.ofNat 8 sv) 0

/-- The word of format N (R38). -/
def encodeNext : Word := placed 4#3 29

/-- The command word of a well-formed instruction (R35 to R38). -/
def encode : Instr → Word
  | .lfsrLoad e slen tlen seed taps => encodeLoad e slen tlen seed taps
  | .lfsrStep e => encodeStep e
  | .caInit sv => encodeInit sv
  | .caNext => encodeNext

/-- The mask of the instruction's row in the opcode table (R40). -/
def rowMask : Instr → Word
  | .lfsrLoad .. => 0xE0000000#32
  | .lfsrStep _ => 0xEFFFFFFF#32
  | .caInit _ => 0xFFFFFF00#32
  | .caNext => 0xFFFFFFFF#32

/-- The match value of the instruction's row in the opcode table (R40). -/
def rowMatch : Instr → Word
  | .lfsrLoad .. => 0x20000000#32
  | .lfsrStep _ => 0x40000000#32
  | .caInit _ => 0x60000000#32
  | .caNext => 0x80000000#32

/-- The command word whose low `nbits` bits are those of `w`, the rest zero. The table numbers bit 0 as the least
significant bit of the one 32-bit word, as R34 does. -/
def tableWord (nbits w : Nat) : Word := BitVec.ofNat 32 (w % 2 ^ nbits)

/-- What the decoder reads from an instruction whose bits are `w`, numbered as spec/opcode_table.json numbers them. -/
def decodeTableWord (nbits w : Nat) : Option Instr :=
  match decode (tableWord nbits w) with
  | .ok i => some i
  | .error _ => none

end Sys2Proof
end

