-- ==== Sys2Proof/Machine/Params.lean ====
section
/-! DEFINITION. The constants of PSN-CORE: the LFSR1 seed, the two tap masks, the chip map, and the default value of
the seed table (R5, R23, R56, R59). -/

namespace Sys2Proof.Machine

/-- `SEED_G1`: ten 1s, the same for every SV (R5, R56). -/
def seedG1 : Reg := 0x3FF#10

/-- `TAPS_G1`: positions 3 and 10 (R5, R56). -/
def tapsG1 : Reg := 0x081#10

/-- `TAPS_G2`: positions 2, 3, 6, 8, 9 and 10 (R5, R56). -/
def tapsG2 : Reg := 0x197#10

/-- The default value of the parameter `SEED_TABLE` (R23, column "ROM word"; the spec marks it as general knowledge,
K1). PRESUMED, unsafe: log entry 1. Only `State.reset` uses it. -/
def defaultSeedTable : SeedTable :=
  #v[
    0x3EC#10, 0x3D8#10, 0x3B0#10, 0x360#10, 0x096#10, 0x12C#10, 0x196#10, 0x32C#10,
    0x258#10, 0x374#10, 0x2E8#10, 0x3A0#10, 0x340#10, 0x280#10, 0x100#10, 0x200#10,
    0x226#10, 0x04C#10, 0x098#10, 0x130#10, 0x260#10, 0x0C0#10, 0x0CE#10, 0x270#10,
    0x0E0#10, 0x1C0#10, 0x380#10, 0x300#10, 0x056#10, 0x0AC#10, 0x158#10, 0x2B0#10]

/-- `CHIP`: combined bit 0 is chip −1, combined bit 1 is chip +1 (R59). -/
def chipOf (a : Bool) : Chip := if a then .plusOne else .minusOne

/-- The integer a chip is (R9). -/
def chipInt : Chip → Int
  | .minusOne => -1
  | .plusOne => 1

end Sys2Proof.Machine
end

