-- ==== Sys2Proof/Machine/State.lean ====
section
/-! DEFINITION. The state of one PSN-CORE block and of its host interface, the reasons a step can stop, and the state
after reset (R10, R19, R82). -/

namespace Sys2Proof.Machine

/-- One LFSR engine: the register triple `(R[e], M[e], V[e])` (R45). -/
structure Engine where
  /-- `R[e]`, the shift register (R12). -/
  r : Reg
  /-- `M[e]`, the tap mask (R13). -/
  m : Reg
  /-- `V[e]`, constructed since reset (R14). -/
  v : Bool
  deriving DecidableEq, Repr

/-- One input of the block (R82). -/
inductive Input where
  /-- The `RESET` event, which is no command word (R74). -/
  | reset
  /-- A command word presented by the host (R34). -/
  | command (w : Word)
  deriving DecidableEq, Repr

/-- The state: the block's seven registers (R10), the seed ROM it reads, and the host's side of the interface. -/
structure State where
  /-- `R[1]`, `M[1]`, `V[1]`. -/
  engine1 : Engine
  /-- `R[2]`, `M[2]`, `V[2]`. -/
  engine2 : Engine
  /-- `FAULT`, 4 bits: the cause code of the first fault since reset, 0 when none (R15). -/
  fault : BitVec 4
  /-- The contents of the seed ROM: the parameter `SEED_TABLE` (R5, R23), which no step writes. Configuration, no
  register (R17). DESIGN CHOICE to carry it here, safe; its value at reset is PRESUMED: log entry 1. -/
  seedTable : SeedTable
  /-- The inputs the host has still to present, oldest first (R82). DESIGN CHOICE, safe: log entry 2. -/
  inputs : List Input
  /-- The response words the host has received, oldest first (R41). DESIGN CHOICE, safe: log entry 2. -/
  responses : List Word
  deriving DecidableEq, Repr

/-- Why a step stops with a fault. The spec's own four faults are no stops: they are NEXT states (R65). -/
inductive Fault where
  /-- A read of the seed ROM at an address that does not exist (R22, R24). Raised by `execCaInit` after its range
  check, so by no instruction on any operand. Safe. -/
  | romAbsent
  deriving DecidableEq, Repr

/-- Why an instruction is refused. -/
inductive Refusal where
  /-- An instruction with no meaning yet, raised by its arm of `exec`. No arm raises it in this model. Safe. -/
  | notModelled (mnemonic : String)
  deriving DecidableEq, Repr

/-- An engine as reset leaves it (R19, R74). -/
def Engine.blank : Engine := { r := 0x000#10, m := 0x000#10, v := false }

/-- The machine right after reset (R19, R74): both engines blank, no fault; nothing presented and nothing answered
yet (log entry 2); the ROM holds the default table (log entry 1). -/
def State.reset : State :=
  { engine1 := Engine.blank
    engine2 := Engine.blank
    fault := 0#4
    seedTable := defaultSeedTable
    inputs := []
    responses := [] }

end Sys2Proof.Machine
end

