-- ==== Sys2Proof/Machine/Flags.lean ====
section
/-! DEFINITION. The block's status bits: the valid flags (R14), `FAULT` and its cause codes (R15, R63), and the
response status codes (R41). -/

namespace Sys2Proof.Machine

/-- The four fault causes (R63). -/
inductive Cause where
  | illegalCommand
  | malformedConfig
  | invalidSV
  | notConfigured
  deriving DecidableEq, Repr

/-- The cause code, written to `FAULT` and answered as the status (R63). -/
def causeCode : Cause → BitVec 4
  | .illegalCommand => 1#4
  | .malformedConfig => 2#4
  | .invalidSV => 3#4
  | .notConfigured => 4#4

/-- Status `OK` (R41). -/
def statusOk : BitVec 4 := 0#4

/-- Status `Faulted` (R41, R66). -/
def statusFaulted : BitVec 4 := 15#4

/-- The sticky condition `FAULT ≠ 0` (R66). -/
def faulted (s : State) : Bool := s.fault != 0#4

/-- Both engines are constructed (R58). -/
def bothConfigured (s : State) : Bool := s.engine1.v && s.engine2.v

end Sys2Proof.Machine
end

