-- ==== Sys2Proof/Machine/Operands.lean ====
section
/-! DEFINITION. Bits, vectors and numerals: the vector to numeral map (R7), slices used by the engine step, and the
byte a bit or a chip is answered as (R39, R41, R42). -/

namespace Sys2Proof.Machine

/-- `num(v)`: the numeral of a 10-element vector, element `i` weighing `2^(9-i)` (R7). -/
def num (v : Vector Bool 10) : Reg :=
  BitVec.ofNat 10 (((List.finRange 10).map fun i => v[i].toNat * 2 ^ (9 - i.val)).sum)

/-- `vec(x)`: the vector of a numeral, element `i` being bit `9 - i` (R7). -/
def vec (x : Reg) : Vector Bool 10 := Vector.ofFn fun i : Fin 10 => x.getLsbD (9 - i.val)

/-- `parity(x)`: the exclusive-or of all bits of `x` (00_scope.md section 5.2); 0 for `x = 0`. -/
def parity (x : Reg) : Bool := (List.range 10).foldr (fun b acc => Bool.xor (x.getLsbD b) acc) false

/-- `zext_8` of a bit: the data byte of a successful `LFSR.STEP` (R41, R49). -/
def bitByte (b : Bool) : BitVec 8 := (BitVec.ofBool b).setWidth 8

/-- `sext_8` of a chip: its 8-bit two's-complement numeral (R42). -/
def chipByte (c : Chip) : BitVec 8 := BitVec.ofInt 8 (chipInt c)

end Sys2Proof.Machine
end

