-- ==== Sys2Proof/Machine/Ops.lean ====
section
/-! DEFINITION. The named operations the meanings are written with: engine registers, the ROM read, responses, taking
a fault, the sticky refusal, the engine step, and the reset event (R8, R24, R41, R46, R47, R65, R66, R74). -/

namespace Sys2Proof.Machine

/-- The registers of engine `e` (R11). -/
def State.engine (s : State) : EngineId → Engine
  | .lfsr1 => s.engine1
  | .lfsr2 => s.engine2

/-- Write the registers of engine `e`; the other engine is untouched (R20). -/
def State.setEngine (s : State) (e : EngineId) (g : Engine) : State :=
  match e with
  | .lfsr1 => { s with engine1 := g }
  | .lfsr2 => { s with engine2 := g }

/-- `RomRead(sv)` (R24): defined for 1 to 32 and for no other argument (R22, R27). -/
def romRead (s : State) (sv : Nat) : Option Reg :=
  if Config.svFirst ≤ sv ∧ sv ≤ Config.svLast then s.seedTable[sv - 1]? else none

/-- A response word: status in bits 31:28, zero in 27:8, data in 7:0 (R41). -/
def responseWord (status : BitVec 4) (data : BitVec 8) : Word :=
  status.setWidth 32 <<< 28 ||| data.setWidth 32

/-- `respond(status, data)` (R8): the response is handed to the host, after all earlier ones. -/
def respond (s : State) (status : BitVec 4) (data : BitVec 8) : State :=
  { s with responses := s.responses ++ [responseWord status data] }

/-- `raise c` with `FAULT = 0` (R65): `FAULT` takes the code, no other register is written, the response carries the
code and no data. -/
def raiseFault (s : State) (c : Cause) : State :=
  respond { s with fault := causeCode c } (causeCode c) 0#8

/-- The refusal of any command while `FAULT ≠ 0` (R66): no register is written; status `Faulted`, data `FAULT`. -/
def refuseFaulted (s : State) : State := respond s statusFaulted (s.fault.setWidth 8)

/-- The first check of every command (R66, R67): refuse while `FAULT ≠ 0`, else go on. -/
def unlessFaulted (s : State) (go : Host.Outcome State Fault Refusal) : Host.Outcome State Fault Refusal :=
  if faulted s then .next (refuseFaulted s) else go

/-- `fb(r, m)`: the exclusive-or of the tapped bits of the state (R46). -/
def feedback (r m : Reg) : Bool := parity (r &&& m)

/-- The shift of R47: `{ f, r[9:1] }` with the feedback of the value before the step. -/
def shifted (r m : Reg) : Reg := BitVec.cons (feedback r m) (r.extractLsb' 1 9)

/-- The output of a step: the rear bit `r[0]` before the step (R47). -/
def rear (r : Reg) : Bool := r.getLsbD 0

/-- `Step(e)`'s effect on the state: `R[e]` is shifted, nothing else is written (R47). -/
def stepEngine (s : State) (e : EngineId) : State :=
  s.setEngine e { s.engine e with r := shifted (s.engine e).r (s.engine e).m }

/-- `Step(e)`'s result: the output bit, taken from the state before the step (R47). -/
def stepOutput (s : State) (e : EngineId) : Bool := rear (s.engine e).r

/-- The `RESET` event (R74): all seven registers; the ROM is unchanged and there is no response word. -/
def resetEvent (s : State) : State :=
  { s with engine1 := Engine.blank, engine2 := Engine.blank, fault := 0#4 }

end Sys2Proof.Machine
end

