-- ==== Sys2Proof/Machine/Gold.lean ====
section
/-! DEFINITION. The meanings of the Gold code generator's commands: `CA.INIT` (R57) and `CA.NEXT` (R58). -/

namespace Sys2Proof.Machine

/-- LFSR1 as `CA.INIT` constructs it, the same for every SV (R56, R57). -/
def g1Engine : Engine := { r := seedG1, m := tapsG1, v := true }

/-- LFSR2 as `CA.INIT` constructs it from the SV's ROM word (R56, R57). -/
def g2Engine (seed : Reg) : Engine := { r := seed, m := tapsG2, v := true }

/-- `CA.INIT sv` (R57): construct the generator for one SV. The range check comes before the ROM read and before any
register write; the SV id is compared as an integer and never reduced (R27, R39). -/
def execCaInit (sv : Nat) (s : State) : Host.Outcome State Fault Refusal :=
  unlessFaulted s <|
    if sv < Config.svFirst ∨ sv > Config.svLast then .next (raiseFault s .invalidSV)
    else match romRead s sv with
      | none => .fault .romAbsent
      | some seed => .next (respond ((s.setEngine .lfsr1 g1Engine).setEngine .lfsr2 (g2Engine seed)) statusOk 0#8)

/-- `CA.NEXT` (R58): step both engines once and answer the chip of the exclusive-or of their outputs. Both valid flags
are checked before either engine is stepped. -/
def execCaNext (s : State) : Host.Outcome State Fault Refusal :=
  unlessFaulted s <|
    if bothConfigured s then
      .next (respond (stepEngine (stepEngine s .lfsr1) .lfsr2) statusOk
        (chipByte (chipOf (Bool.xor (stepOutput s .lfsr1) (stepOutput s .lfsr2)))))
    else .next (raiseFault s .notConfigured)

end Sys2Proof.Machine
end

