-- ==== Sys2Proof/Machine/Lfsr.lean ====
section
/-! DEFINITION. The meanings of the LFSR engine's commands: `LFSR.LOAD` (R48) and `LFSR.STEP` (R49). -/

namespace Sys2Proof.Machine

/-- `LFSR.LOAD e, seed, taps` (R48): construct engine `e`. Any length other than 10 is `MalformedConfig`, checked before
any register is written (C1). -/
def execLfsrLoad (e : EngineId) (slen tlen : Nat) (seed taps : Reg) (s : State) :
    Host.Outcome State Fault Refusal :=
  unlessFaulted s <|
    if slen ≠ Config.vectorLength ∨ tlen ≠ Config.vectorLength then .next (raiseFault s .malformedConfig)
    else .next (respond (s.setEngine e { r := seed, m := taps, v := true }) statusOk 0#8)

/-- `LFSR.STEP e` (R49): produce the next value of engine `e`, which must be constructed. -/
def execLfsrStep (e : EngineId) (s : State) : Host.Outcome State Fault Refusal :=
  unlessFaulted s <|
    if (s.engine e).v then .next (respond (stepEngine s e) statusOk (bitByte (stepOutput s e)))
    else .next (raiseFault s .notConfigured)

end Sys2Proof.Machine
end

