-- ==== Sys2Proof/Machine/Dispatch.lean ====
section
/-! DEFINITION. One arm per command of R72: each calls its meaning. -/

namespace Sys2Proof.Machine

def exec (i : Instr) (s : State) : Host.Outcome State Fault Refusal :=
  match i with
  | .lfsrLoad e slen tlen seed taps => Sys2Proof.Machine.execLfsrLoad e slen tlen seed taps s
  | .lfsrStep e => Sys2Proof.Machine.execLfsrStep e s
  | .caInit sv => Sys2Proof.Machine.execCaInit sv s
  | .caNext => Sys2Proof.Machine.execCaNext s

end Sys2Proof.Machine
end

