-- ==== Sys2Proof/Machine/Present.lean ====
section
/-! DEFINITION. What the block does with one input of its host (R67, R74, R82), and how its next input is taken. -/

namespace Sys2Proof.Machine

/-- A command word presented to the block, in the order of R67: sticky refusal before decoding (R66), then
`IllegalCommand` (R40, R65), then the decoded command with its own checks. -/
def presentCommand (w : Word) (s : State) : Host.Outcome State Fault Refusal :=
  unlessFaulted s <|
    match decode w with
    | .error _ => .next (raiseFault s .illegalCommand)
    | .ok i => exec i s

/-- One input (R82): the reset event or a command word. -/
def present (x : Input) (s : State) : Host.Outcome State Fault Refusal :=
  match x with
  | .reset => .next (resetEvent s)
  | .command w => presentCommand w s

/-- Take the oldest pending input and process it. With none pending the block is idle and holds its state (R73, log
entry 3). -/
def takeInput (s : State) : Host.Outcome State Fault Refusal :=
  match s.inputs with
  | [] => .next s
  | x :: rest => present x { s with inputs := rest }

/-- Put a command word before all pending inputs. -/
def pushCommand (s : State) (w : Word) : State := { s with inputs := .command w :: s.inputs }

end Sys2Proof.Machine
end

