-- ==== Sys2Proof/Machine/Step.lean ====
section
/-! DEFINITION. One step of the machine: the oldest pending input is processed, completely, before the next (R30). -/

namespace Sys2Proof.Machine

/-- One step: one input, one atomic transition (R28, R30, R82). -/
def step (s : State) : Host.Outcome State Fault Refusal := takeInput s

/-- `s` with the instruction whose bits are `w` presented as its next input, so that the next step runs it. -/
def State.withFetchWord (s : State) (nbits w : Nat) : State := pushCommand s (tableWord nbits w)

end Sys2Proof.Machine
end

