-- ==== Sys2Proof/Machine/Assembly.lean ====
section
/-! DEFINITION. The textual command lines (R43) and the pseudo-commands (R44) as data, with what each stands for, and a
list of commands run one after the other (R30). -/

namespace Sys2Proof.Machine

/-- A line of the syntax of R43, its operands read. A vector is given as its numeral (`num` of Machine/Operands.lean). -/
inductive Line where
  | lfsrLoad (e : EngineId) (seed taps : Reg)
  | lfsrLoadLen (e : EngineId) (slen : Nat) (seed : Reg) (tlen : Nat) (taps : Reg)
  | lfsrStep (e : EngineId)
  | caInit (sv : Nat)
  | caNext
  | reset
  | word (w : Word)
  deriving DecidableEq, Repr

/-- The input a line stands for (R43). -/
def assemble : Line → Input
  | .lfsrLoad e seed taps => .command (encode (.lfsrLoad e 10 10 seed taps))
  | .lfsrLoadLen e slen seed tlen taps => .command (encode (.lfsrLoad e slen tlen seed taps))
  | .lfsrStep e => .command (encode (.lfsrStep e))
  | .caInit sv => .command (encode (.caInit sv))
  | .caNext => .command (encode .caNext)
  | .reset => .reset
  | .word w => .command w

/-- The name of an engine in the syntax: 1 for LFSR1, 2 for LFSR2 (R43). -/
def engineText : EngineId → String
  | .lfsr1 => "1"
  | .lfsr2 => "2"

/-- A vector in the source's list order, front first, as in `[1,0,1,1,0,0,1,0,1,1]` (R7, R43). -/
def vectorText (x : Reg) : String :=
  "[" ++ String.intercalate "," ((vec x).toList.map fun b => if b then "1" else "0") ++ "]"

/-- A numeral in hexadecimal with `digits` digits, as in `0x3FF` (R7, R43). -/
def hexText (digits x : Nat) : String :=
  "0x" ++ String.ofList
    ((List.range digits).map fun k => ((x / 16 ^ (digits - 1 - k)) % 16).digitChar.toUpper)

/-- The text of a line (R43). -/
def lineText : Line → String
  | .lfsrLoad e seed taps => "LFSR.LOAD " ++ engineText e ++ ", " ++ vectorText seed ++ ", " ++ vectorText taps
  | .lfsrLoadLen e slen seed tlen taps =>
    "LFSR.LOAD " ++ engineText e ++ ", len=" ++ toString slen ++ ":" ++ hexText 3 seed.toNat ++
      ", len=" ++ toString tlen ++ ":" ++ hexText 3 taps.toNat
  | .lfsrStep e => "LFSR.STEP " ++ engineText e
  | .caInit sv => "CA.INIT " ++ toString sv
  | .caNext => "CA.NEXT"
  | .reset => "RESET"
  | .word w => ".word " ++ hexText 8 w.toNat

/-- The pseudo-commands (R44). -/
inductive Pseudo where
  | lfsr (e : EngineId) (seed taps : Reg)
  | lfsrPull (e : EngineId) (n : Nat)
  | caCodeGen (sv : Nat)
  | caPull (n : Nat)
  | g1Load
  | g2Load (seed : Reg)
  | harness
  deriving DecidableEq, Repr

/-- The commands a pseudo-command stands for (R44). -/
def expand : Pseudo → List Instr
  | .lfsr e seed taps => [.lfsrLoad e 10 10 seed taps]
  | .lfsrPull e n => List.replicate n (.lfsrStep e)
  | .caCodeGen sv => [.caInit sv]
  | .caPull n => List.replicate n .caNext
  | .g1Load => [.lfsrLoad .lfsr1 10 10 seedG1 tapsG1]
  | .g2Load seed => [.lfsrLoad .lfsr2 10 10 seed tapsG2]
  | .harness => (List.range 32).flatMap fun k => .caInit (k + 1) :: List.replicate 10 .caNext

/-- Commands run in order, each complete before the next (R30). -/
def execAll : List Instr → State → Host.Outcome State Fault Refusal
  | [], s => .next s
  | i :: rest, s =>
    match exec i s with
    | .next t => execAll rest t
    | .fault f => .fault f
    | .refused x => .refused x

end Sys2Proof.Machine
end

