-- ==== Sys2Proof/Machine/System.lean ====
section
/-! DEFINITION. A system of `NINST` blocks (R70): the one seed ROM they share, and what each block has to itself. Blocks
are stepped one at a time, in whatever order a schedule names them (log entry 8). -/

namespace Sys2Proof.Machine

/-- What a block of a system has to itself: its own seven registers (R10), and its own command stream and responses (R70,
R82). The seed ROM is not among it. -/
structure Block where
  /-- `R[1]`, `M[1]`, `V[1]`. -/
  engine1 : Engine
  /-- `R[2]`, `M[2]`, `V[2]`. -/
  engine2 : Engine
  /-- `FAULT` (R15). -/
  fault : BitVec 4
  /-- The inputs this block's host has still to present, oldest first. -/
  inputs : List Input
  /-- The response words this block's host has received, oldest first. -/
  responses : List Word
  deriving DecidableEq, Repr

/-- A system (R70): its blocks share the seed ROM's contents, so these stand here once, and no mutable state. (The fixed
seeds and masks, which they share too, are the constants of Machine/Params.lean.) -/
structure System where
  /-- The contents of the one seed ROM every block reads (R22, R70). -/
  seedTable : SeedTable
  /-- The blocks; their number is `NINST` (R5), and a block's place is a number that the block itself cannot see (R70). -/
  blocks : List Block
  deriving DecidableEq, Repr

/-- A block alone: its own part with the ROM it reads. -/
def Block.withRom (b : Block) (table : SeedTable) : State :=
  { engine1 := b.engine1
    engine2 := b.engine2
    fault := b.fault
    seedTable := table
    inputs := b.inputs
    responses := b.responses }

/-- What a block has to itself. -/
def State.block (s : State) : Block :=
  { engine1 := s.engine1
    engine2 := s.engine2
    fault := s.fault
    inputs := s.inputs
    responses := s.responses }

/-- Block `k` as the machine that `step` steps, which reads the system's ROM; none where no block has that number. -/
def System.blockAt (sys : System) (k : Nat) : Option State := sys.blocks[k]?.map fun b => b.withRom sys.seedTable

/-- Block `j` gets what `t` has to itself; the shared ROM and the other blocks are as they were (R70). -/
def System.setBlock (sys : System) (j : Nat) (t : State) : System := { sys with blocks := sys.blocks.set j t.block }

/-- A system as built: `ninst` blocks, each as its own reset leaves it (R19, R74), and one ROM. There is no reset of a
whole system: the `RESET` event is an input of one block (R70). -/
def System.reset (ninst : Nat) (table : SeedTable) : System :=
  { seedTable := table, blocks := List.replicate ninst State.reset.block }

/-- One step of block `j`; a number that names no block changes nothing. -/
def stepBlock (j : Nat) (sys : System) : Host.Outcome System Fault Refusal :=
  match sys.blockAt j with
  | none => .next sys
  | some s =>
    match step s with
    | .next t => .next (sys.setBlock j t)
    | .fault f => .fault f
    | .refused x => .refused x

/-- The blocks stepped in the order of the schedule, one number a step. -/
def runSchedule : List Nat → System → Host.Outcome System Fault Refusal
  | [], sys => .next sys
  | j :: rest, sys =>
    match stepBlock j sys with
    | .next sys' => runSchedule rest sys'
    | .fault f => .fault f
    | .refused x => .refused x

end Sys2Proof.Machine
end

