-- ==== Sys2Proof/Machine/Reference.lean ====
section
/-! DEFINITION. The spec's own second descriptions, which the claims compare the machine with: the source's step on
vectors (R46, R47), the sequences of R50 and R60, the order of checks on raw words (R67), and the set of response words
(R41). No meaning uses them. -/

namespace Sys2Proof.Machine

/-- The source's feedback: exclusive-or over all positions `i` with `tap[i] = 1` of `state[i]` (R46). -/
def sourceFeedback (state tap : List Bool) : Bool :=
  ((List.range 10).filter fun i => tap.getD i false).foldr (fun i acc => Bool.xor (state.getD i false) acc) false

/-- The source's step: `new_state = [feedback] ++ state[0..8]`, output `state[9]` (R47). -/
def sourceStep (state tap : List Bool) : List Bool × Bool :=
  (sourceFeedback state tap :: state.take 9, state.getD 9 false)

/-- The state sequence `r_k` of seed `seed` and mask `m` (R50). -/
def stateSeq (seed m : Reg) : Nat → Reg
  | 0 => seed
  | k + 1 => shifted (stateSeq seed m k) m

/-- The output sequence `out_k` of seed `seed` and mask `m` (R50). -/
def outSeq (seed m : Reg) (k : Nat) : Bool := rear (stateSeq seed m k)

/-- The chip sequence of an SV whose ROM word is `seed` (R60). -/
def chipSeq (seed : Reg) (k : Nat) : Chip := chipOf (Bool.xor (outSeq seedG1 tapsG1 k) (outSeq seed tapsG2 k))

/-- The response word of a successful `LFSR.STEP` (R41, table). -/
def bitWord (b : Bool) : Word := if b then 0x00000001#32 else 0x00000000#32

/-- The response word of a successful `CA.NEXT` (R41, table). -/
def chipWord : Chip → Word
  | .plusOne => 0x00000001#32
  | .minusOne => 0x000000FF#32

/-- Every response word that R41's table names. -/
def legalResponses : List Word :=
  [0x00000000#32, 0x00000001#32, 0x000000FF#32,
   0x10000000#32, 0x20000000#32, 0x30000000#32, 0x40000000#32,
   0xF0000001#32, 0xF0000002#32, 0xF0000003#32, 0xF0000004#32]

/-- `w` matches the row of `LFSR.LOAD`, of `LFSR.STEP`, of `CA.INIT`, of `CA.NEXT` in the mask table (R40). -/
def isLoadWord (w : Word) : Bool := w &&& 0xE0000000#32 == 0x20000000#32
@[inherit_doc isLoadWord] def isStepWord (w : Word) : Bool := w &&& 0xEFFFFFFF#32 == 0x40000000#32
@[inherit_doc isLoadWord] def isInitWord (w : Word) : Bool := w &&& 0xFFFFFF00#32 == 0x60000000#32
@[inherit_doc isLoadWord] def isNextWord (w : Word) : Bool := w &&& 0xFFFFFFFF#32 == 0x80000000#32

/-- `w` matches some row of the mask table (R40). -/
def isLegalWord (w : Word) : Bool := isLoadWord w || isStepWord w || isInitWord w || isNextWord w

/-- Both declared lengths of a load word are 10, that is `w[27:20] = 0xAA` (R35). -/
def lengthsTen (w : Word) : Bool := w &&& 0x0FF00000#32 == 0x0AA00000#32

/-- The SV id of a `CA.INIT` word, an unsigned integer (R39). -/
def svOfWord (w : Word) : Nat := (w &&& 0xFF#32).toNat

/-- The valid flag of the engine that bit 28 of a step word selects (R36, R49). -/
def steppedEngineValid (w : Word) (s : State) : Bool :=
  if w &&& 0x10000000#32 == 0#32 then s.engine1.v else s.engine2.v

/-- The status of the response to word `w`: the first check of R67 that fails decides, 0 when none does. -/
def checkedStatus (w : Word) (s : State) : BitVec 4 :=
  if s.fault ≠ 0#4 then 15#4
  else if isLegalWord w = false then 1#4
  else if isLoadWord w = true ∧ lengthsTen w = false then 2#4
  else if isInitWord w = true ∧ ¬ (1 ≤ svOfWord w ∧ svOfWord w ≤ 32) then 3#4
  else if isStepWord w = true ∧ steppedEngineValid w s = false then 4#4
  else if isNextWord w = true ∧ ¬ (s.engine1.v = true ∧ s.engine2.v = true) then 4#4
  else 0#4

end Sys2Proof.Machine
end

