-- ==== Sys2Proof/Safety.lean ====
section
/-! DEFINITION. What a good run is, when a command executes normally, the invariant every step keeps, and what the host
can tell apart, in the terms the claims use (R19, R41, R63, R67, R82). -/

namespace Sys2Proof.Machine

/-- A run that ends in `s` has gone wrong exactly when `FAULT ≠ 0` (R82). -/
abbrev WentWrong (s : State) : Prop := s.fault ≠ 0#4

/-- The operand and state checks of the command pass (R67, points 3 and 4), so that it has its own effect when no fault
is recorded (R48, R49, R57, R58). -/
abbrev Ready (i : Instr) (s : State) : Prop :=
  match i with
  | .lfsrLoad _ slen tlen _ _ => slen = 10 ∧ tlen = 10
  | .lfsrStep .lfsr1 => s.engine1.v = true
  | .lfsrStep .lfsr2 => s.engine2.v = true
  | .caInit sv => 1 ≤ sv ∧ sv ≤ 32
  | .caNext => s.engine1.v = true ∧ s.engine2.v = true

/-- An engine not constructed since reset holds what reset wrote (R19, R74). -/
abbrev BlankUnlessValid (g : Engine) : Prop := g.v = false → g.r = 0#10 ∧ g.m = 0#10

/-- What every step keeps: `FAULT` holds 0 or a cause code (R15, R63), an engine that is not constructed holds the reset
values (R19), and the host has received only response words of R41's table. -/
abbrev Inv (s : State) : Prop :=
  s.fault.toNat ≤ 4 ∧ BlankUnlessValid s.engine1 ∧ BlankUnlessValid s.engine2 ∧
    ∀ x ∈ s.responses, x ∈ legalResponses

/-- Two engines alike but for the contents of an unconstructed one. -/
abbrev SameEngineView (g h : Engine) : Prop := g.v = h.v ∧ (g.v = true → g = h)

/-- Two states alike but for `R[e]` and `M[e]` of engines with `V[e] = 0`, whose values R19 calls unobservable. -/
abbrev SameView (s t : State) : Prop :=
  SameEngineView s.engine1 t.engine1 ∧ SameEngineView s.engine2 t.engine2 ∧ s.fault = t.fault ∧
    s.seedTable = t.seedTable ∧ s.inputs = t.inputs ∧ s.responses = t.responses

end Sys2Proof.Machine
end

