-- ==== Sys2Proof/Certificates/Slice0/Obligations.lean ====
section
/-! DEFINITION. What is claimed of the model, one definition a claim. A `next` state is written out as an update of the
state before, so that a claim about an instruction says also everything the instruction leaves unchanged (its frame). -/

open Sys2Proof Sys2Proof.Machine

/-! ### Reset, the input queue and decoding -/

/-- R19: what the registers hold after reset. -/
def Obligations.ResetRegisterValues : Prop :=
  State.reset.engine1.v = false ∧ State.reset.engine2.v = false ∧ State.reset.fault = 0#4 ∧
    State.reset.engine1.r = 0x000#10 ∧ State.reset.engine2.r = 0x000#10 ∧
    State.reset.engine1.m = 0x000#10 ∧ State.reset.engine2.m = 0x000#10

/-- R74: the `RESET` event clears all seven registers, in every state and in the middle of any run; the ROM keeps its
contents, no response is given, and the registers are then those of a block that never received a command. Nothing else
clears a fault (R68) or a valid flag (R14): a command keeps a recorded fault and every valid flag. -/
def Obligations.OnlyResetClearsTheBlock : Prop :=
  (∀ (s : State) (rest : List Input), s.inputs = .reset :: rest →
    step s = .next
      { engine1 := { r := 0x000#10, m := 0x000#10, v := false }
        engine2 := { r := 0x000#10, m := 0x000#10, v := false }
        fault := 0#4
        seedTable := s.seedTable
        inputs := rest
        responses := s.responses }) ∧
  (State.reset.engine1 = { r := 0x000#10, m := 0x000#10, v := false } ∧
    State.reset.engine2 = { r := 0x000#10, m := 0x000#10, v := false } ∧
    State.reset.fault = 0#4) ∧
  ∀ (s t : State) (w : Word) (rest : List Input), s.inputs = .command w :: rest → step s = .next t →
    (s.fault ≠ 0#4 → t.fault = s.fault) ∧
    (s.engine1.v = true → t.engine1.v = true) ∧ (s.engine2.v = true → t.engine2.v = true)

/-- R30, R34, R40: when the oldest input is a command word that decodes to `i`, the step is `exec i`, the word having been
taken from the inputs. In every state. In a faulted one R66 refuses before decoding; that the step is `exec i` there too
rests on log entry 4 (DEDUCED: each meaning gives the refusal again, as R48, R49, R57 and R58 list it). -/
def Obligations.StepRunsDecodedCommand : Prop :=
  ∀ (s : State) (w : Word) (rest : List Input) (i : Instr),
    s.inputs = .command w :: rest → decode w = .ok i → step s = exec i { s with inputs := rest }

/-- R63, R65: a word that does not decode raises `IllegalCommand`: `FAULT` takes 1 and the response is 0x10000000. -/
def Obligations.IllegalWordTakesFault : Prop :=
  ∀ (s : State) (w : Word) (rest : List Input) (why : Illegal),
    s.inputs = .command w :: rest → s.fault = 0#4 → decode w = .error why →
    step s = .next
      { s with inputs := rest, fault := 1#4, responses := s.responses ++ [0x10000000#32] }

/-- R66: while `FAULT ≠ 0` every command word, legal or illegal, writes no register and is answered with
`0xF0000000 | FAULT`. -/
def Obligations.FaultedBlockRefusesEveryCommand : Prop :=
  ∀ (s : State) (w : Word) (rest : List Input),
    s.inputs = .command w :: rest → s.fault ≠ 0#4 →
    step s = .next
      { s with inputs := rest, responses := s.responses ++ [0xF0000000#32 ||| s.fault.setWidth 32] }

/-- R48, R49, R57, R58 ("`Faulted` when `FAULT ≠ 0` on entry"): each command's own meaning refuses too, so a claim
about `exec` needs no step around it. That the check stands in the meaning as well is the model's choice (log entry 4); so
is that `i` may have operands no word carries (log entry 6). -/
def Obligations.MeaningsRefuseWhileFaulted : Prop :=
  ∀ (i : Instr) (s : State), s.fault ≠ 0#4 →
    exec i s = .next { s with responses := s.responses ++ [0xF0000000#32 ||| s.fault.setWidth 32] }

/-- R73 ("Between commands it is idle and holds its state"): with no input pending a step changes nothing. That the step
then answers a next state is the model's choice (log entry 3). -/
def Obligations.IdleBlockHoldsItsState : Prop :=
  ∀ s : State, s.inputs = [] → step s = .next s

/-- R35 to R38, R40: words written out from the spec's formats decode to what they stand for. The rules call the last three
words illegal and no more; which reason the decoder names (a must-be-zero bit, a reserved operation code) is the model's
choice (log entry 10). -/
def Obligations.SampleWordsDecode : Prop :=
  decode 0x2AAFFC81#32 = .ok (.lfsrLoad .lfsr1 10 10 0x3FF#10 0x081#10) ∧
    decode 0x3FFFFFFF#32 = .ok (.lfsrLoad .lfsr2 15 15 0x3FF#10 0x3FF#10) ∧
    decode 0x299FFC81#32 = .ok (.lfsrLoad .lfsr1 9 9 0x3FF#10 0x081#10) ∧
    decode 0x50000000#32 = .ok (.lfsrStep .lfsr2) ∧
    decode 0x60000021#32 = .ok (.caInit 33) ∧
    decode 0x80000000#32 = .ok .caNext ∧
    decode 0x48000000#32 = .error .reservedBit ∧
    decode 0x70000001#32 = .error .reservedBit ∧
    decode 0x00000000#32 = .error .reservedOp

/-- R40: the decoder agrees with the mask and match table on every word, the four patterns are disjoint, and a word of no
pattern is illegal. -/
def Obligations.DecodeFollowsMaskTable : Prop :=
  ∀ w : Word,
    (w &&& 0xE0000000#32 = 0x20000000#32 →
      decode w = .ok (.lfsrLoad (if w.getLsbD 28 then .lfsr2 else .lfsr1) ((w >>> 24).toNat % 16)
        ((w >>> 20).toNat % 16) ((w >>> 10).setWidth 10) (w.setWidth 10))) ∧
    (w &&& 0xEFFFFFFF#32 = 0x40000000#32 → decode w = .ok (.lfsrStep (if w.getLsbD 28 then .lfsr2 else .lfsr1))) ∧
    (w &&& 0xFFFFFF00#32 = 0x60000000#32 → decode w = .ok (.caInit (w.toNat % 256))) ∧
    (w &&& 0xFFFFFFFF#32 = 0x80000000#32 → decode w = .ok .caNext) ∧
    (w &&& 0xE0000000#32 ≠ 0x20000000#32 → w &&& 0xEFFFFFFF#32 ≠ 0x40000000#32 →
      w &&& 0xFFFFFF00#32 ≠ 0x60000000#32 → w &&& 0xFFFFFFFF#32 ≠ 0x80000000#32 →
      ∃ why, decode w = .error why) ∧
    List.Pairwise (fun p q : Word × Word => ¬ (w &&& p.1 = p.2 ∧ w &&& q.1 = q.2))
      [(0xE0000000#32, 0x20000000#32), (0xEFFFFFFF#32, 0x40000000#32),
       (0xFFFFFF00#32, 0x60000000#32), (0xFFFFFFFF#32, 0x80000000#32)]

/-- R35 to R38, R40: no operand bit is lost in an encoding: every well-formed instruction is read back from its word. -/
def Obligations.DecodeInvertsEncode : Prop :=
  ∀ i : Instr, i.wellFormed = true → decode (encode i) = .ok i

/-- R35 to R38, R40: every legal word is the encoding of the instruction it decodes to, which is well-formed; so no two
words mean the same instruction and no bit of a legal word is ignored. -/
def Obligations.EncodeInvertsDecode : Prop :=
  ∀ (w : Word) (i : Instr), decode w = .ok i → i.wellFormed = true ∧ encode i = w

/-! ### Operations -/

/-- R22, R24, R27: the ROM answers at addresses 1 to 32 with the table's word and at no other address. -/
def Obligations.RomReadsExactlyThirtyTwoWords : Prop :=
  ∀ (s : State) (sv : Nat),
    (1 ≤ sv → sv ≤ 32 → ∃ word, s.seedTable[sv - 1]? = some word ∧ romRead s sv = some word) ∧
    (sv = 0 ∨ 33 ≤ sv → romRead s sv = none)

/-- R46: the feedback is 1 exactly when an odd number of tapped positions hold 1. The other three clauses are the spec's own
inferences and no plain statement of its source: 0 under the empty mask is its decision D14, and the two clauses of
linearity it marks as derived from the definition. -/
def Obligations.FeedbackIsParityOfTappedBits : Prop :=
  ∀ r q m : Reg,
    (feedback r m = true ↔ ((List.range 10).filter fun b => m.getLsbD b && r.getLsbD b).length % 2 = 1) ∧
    feedback r 0x000#10 = false ∧
    feedback (r ^^^ q) m = Bool.xor (feedback r m) (feedback q m) ∧
    feedback 0x000#10 m = false

/-- R47: `Step(e)`: the feedback of the old value enters at bit 9, every other bit moves one place toward the rear, the
output is the old rear bit, and nothing else is written. It is the source's step on vectors (feedback as an exclusive-or
over the tapped elements, `[feedback] ++ state[0..8]`, output `state[9]`) under the vector to numeral map of R7. -/
def Obligations.EngineStepShiftsOneEngine : Prop :=
  ∀ (s : State) (e : EngineId),
    stepOutput s e = (s.engine e).r.getLsbD 0 ∧
    ((stepEngine s e).engine e).r.getLsbD 9 = feedback (s.engine e).r (s.engine e).m ∧
    (∀ b, b < 9 → ((stepEngine s e).engine e).r.getLsbD b = (s.engine e).r.getLsbD (b + 1)) ∧
    ((stepEngine s e).engine e).r =
      (BitVec.ofBool (feedback (s.engine e).r (s.engine e).m)).setWidth 10 <<< 9 ||| (s.engine e).r >>> 1 ∧
    (e = .lfsr1 → stepEngine s e = { s with engine1 := { s.engine1 with r := ((stepEngine s e).engine e).r } }) ∧
    (e = .lfsr2 → stepEngine s e = { s with engine2 := { s.engine2 with r := ((stepEngine s e).engine e).r } }) ∧
    sourceStep (vec (s.engine e).r).toList (vec (s.engine e).m).toList =
      ((vec ((stepEngine s e).engine e).r).toList, stepOutput s e)

/-- R7: `num` and `vec` are inverse to each other, and element `i` of a vector is bit `9 - i` of its numeral. -/
def Obligations.VectorNumeralMapsInvert : Prop :=
  (∀ v : Vector Bool 10, vec (num v) = v ∧ ∀ i (h : i < 10), (num v).getLsbD (9 - i) = v[i]) ∧
    ∀ x : Reg, num (vec x) = x

/-- R56: the two masks tap exactly the 1-indexed positions 3, 10 and 2, 3, 6, 8, 9, 10 (position `p` is bit `10 - p`),
and the LFSR1 seed is ten 1s. -/
def Obligations.TapMasksAreThePositions : Prop :=
  (∀ p, 1 ≤ p → p ≤ 10 → (tapsG1.getLsbD (10 - p) = true ↔ p ∈ [3, 10])) ∧
    (∀ p, 1 ≤ p → p ≤ 10 → (tapsG2.getLsbD (10 - p) = true ↔ p ∈ [2, 3, 6, 8, 9, 10])) ∧
    ∀ p, 1 ≤ p → p ≤ 10 → seedG1.getLsbD (10 - p) = true

/-- R59: `CHIP(0) = −1`, `CHIP(1) = +1`, that is `CHIP(a) = 2a − 1`. -/
def Obligations.ChipMapIsTwiceBitMinusOne : Prop :=
  chipInt (chipOf false) = -1 ∧ chipInt (chipOf true) = 1 ∧ ∀ a : Bool, chipInt (chipOf a) = 2 * (a.toNat : Int) - 1

/-! ### The four commands -/

/-- R48: the whole of `LFSR.LOAD`, each engine in its own clause. R48 gives lengths 0 to 15; that lengths above 15, which no
word carries, fault like any other length but 10 is the model's choice (log entry 6). -/
def Obligations.LfsrLoadConstructsOrRejects : Prop :=
  ∀ (s : State) (slen tlen : Nat) (seed taps : Reg),
    (s.fault = 0#4 → slen = 10 → tlen = 10 →
      exec (.lfsrLoad .lfsr1 slen tlen seed taps) s = .next
        { s with engine1 := { r := seed, m := taps, v := true }, responses := s.responses ++ [0x00000000#32] } ∧
      exec (.lfsrLoad .lfsr2 slen tlen seed taps) s = .next
        { s with engine2 := { r := seed, m := taps, v := true }, responses := s.responses ++ [0x00000000#32] }) ∧
    (s.fault = 0#4 → slen ≠ 10 ∨ tlen ≠ 10 → ∀ e : EngineId,
      exec (.lfsrLoad e slen tlen seed taps) s = .next
        { s with fault := 2#4, responses := s.responses ++ [0x20000000#32] }) ∧
    (s.fault ≠ 0#4 → ∀ e : EngineId,
      exec (.lfsrLoad e slen tlen seed taps) s = .next
        { s with responses := s.responses ++ [0xF0000000#32 ||| s.fault.setWidth 32] })

/-- R49: the whole of `LFSR.STEP`, each engine in its own clauses; the new `R[e]` is `(fb << 9) | (r >> 1)` and the
response is the old rear bit. -/
def Obligations.LfsrStepAnswersRearBit : Prop :=
  ∀ s : State,
    (s.fault = 0#4 → s.engine1.v = true →
      exec (.lfsrStep .lfsr1) s = .next
        { s with
          engine1 := { s.engine1 with
            r := (BitVec.ofBool (feedback s.engine1.r s.engine1.m)).setWidth 10 <<< 9 ||| s.engine1.r >>> 1 }
          responses := s.responses ++ [if s.engine1.r.getLsbD 0 then 0x00000001#32 else 0x00000000#32] }) ∧
    (s.fault = 0#4 → s.engine2.v = true →
      exec (.lfsrStep .lfsr2) s = .next
        { s with
          engine2 := { s.engine2 with
            r := (BitVec.ofBool (feedback s.engine2.r s.engine2.m)).setWidth 10 <<< 9 ||| s.engine2.r >>> 1 }
          responses := s.responses ++ [if s.engine2.r.getLsbD 0 then 0x00000001#32 else 0x00000000#32] }) ∧
    (s.fault = 0#4 → s.engine1.v = false →
      exec (.lfsrStep .lfsr1) s = .next
        { s with fault := 4#4, responses := s.responses ++ [0x40000000#32] }) ∧
    (s.fault = 0#4 → s.engine2.v = false →
      exec (.lfsrStep .lfsr2) s = .next
        { s with fault := 4#4, responses := s.responses ++ [0x40000000#32] }) ∧
    (s.fault ≠ 0#4 → ∀ e : EngineId,
      exec (.lfsrStep e) s = .next
        { s with responses := s.responses ++ [0xF0000000#32 ||| s.fault.setWidth 32] })

/-- R57: the whole of `CA.INIT`, for every ROM contents and every natural number as SV id. (That numbers above 255, which
no word carries, fault too is the model's choice, log entry 6.) -/
def Obligations.CaInitConstructsBothEngines : Prop :=
  ∀ (s : State) (sv : Nat),
    (s.fault = 0#4 → 1 ≤ sv → sv ≤ 32 → ∃ word, s.seedTable[sv - 1]? = some word ∧
      exec (.caInit sv) s = .next
        { s with
          engine1 := { r := 0x3FF#10, m := 0x081#10, v := true }
          engine2 := { r := word, m := 0x197#10, v := true }
          responses := s.responses ++ [0x00000000#32] }) ∧
    (s.fault = 0#4 → sv < 1 ∨ 32 < sv →
      exec (.caInit sv) s = .next
        { s with fault := 3#4, responses := s.responses ++ [0x30000000#32] }) ∧
    (s.fault ≠ 0#4 →
      exec (.caInit sv) s = .next
        { s with responses := s.responses ++ [0xF0000000#32 ||| s.fault.setWidth 32] })

/-- R58: the whole of `CA.NEXT`, for engines constructed in any way; both engines step once, and the response is +1
(0x01) when their old rear bits differ, −1 (0xFF) when they agree. -/
def Obligations.CaNextAnswersChip : Prop :=
  ∀ s : State,
    (s.fault = 0#4 → s.engine1.v = true → s.engine2.v = true →
      exec .caNext s = .next
        { s with
          engine1 := { s.engine1 with
            r := (BitVec.ofBool (feedback s.engine1.r s.engine1.m)).setWidth 10 <<< 9 ||| s.engine1.r >>> 1 }
          engine2 := { s.engine2 with
            r := (BitVec.ofBool (feedback s.engine2.r s.engine2.m)).setWidth 10 <<< 9 ||| s.engine2.r >>> 1 }
          responses := s.responses ++
            [if s.engine1.r.getLsbD 0 ≠ s.engine2.r.getLsbD 0 then 0x00000001#32 else 0x000000FF#32] }) ∧
    (s.fault = 0#4 → s.engine1.v = false ∨ s.engine2.v = false →
      exec .caNext s = .next { s with fault := 4#4, responses := s.responses ++ [0x40000000#32] }) ∧
    (s.fault ≠ 0#4 →
      exec .caNext s = .next
        { s with responses := s.responses ++ [0xF0000000#32 ||| s.fault.setWidth 32] })

/-- R44, R57: `CA.INIT sv` leaves every register as `G1.LOAD` and then `G2.LOAD SEED_TABLE[sv]` leave it. -/
def Obligations.CaInitEqualsTwoLoads : Prop :=
  ∀ (s : State) (sv : Nat) (word : Reg),
    s.fault = 0#4 → 1 ≤ sv → sv ≤ 32 → s.seedTable[sv - 1]? = some word →
    ∃ a b, exec (.caInit sv) s = .next a ∧ execAll (expand .g1Load ++ expand (.g2Load word)) s = .next b ∧
      a = { b with responses := a.responses } ∧ a.responses = s.responses ++ [0x00000000#32]

/-- R42: a successful pull is answered in the alphabet: a chip is 0x01 or 0xFF and never 0, a bit is 0x00 or 0x01. -/
def Obligations.SuccessfulPullsAnswerInAlphabet : Prop :=
  chipByte .plusOne = 0x01#8 ∧ chipByte .minusOne = 0xFF#8 ∧
    (∀ c : Chip, (chipByte c).toInt = chipInt c) ∧
    (∀ s : State, s.fault = 0#4 → s.engine1.v = true → s.engine2.v = true →
      ∃ t r, exec .caNext s = .next t ∧ t.responses = s.responses ++ [r] ∧ (r = 0x00000001#32 ∨ r = 0x000000FF#32)) ∧
    ∀ (s : State) (e : EngineId), s.fault = 0#4 → (s.engine e).v = true →
      ∃ t r, exec (.lfsrStep e) s = .next t ∧ t.responses = s.responses ++ [r] ∧
        (r = 0x00000000#32 ∨ r = 0x00000001#32)

/-- R48, R49, R57, R58, R67: with no fault recorded every command answers a next state, and it ends without a fault, with
status `OK`, exactly when its operand and state checks pass. That lengths above 15 and SV ids above 255, which no word
carries, fail those checks is the model's choice (log entry 6). -/
def Obligations.CommandCompletesExactlyWhenReady : Prop :=
  ∀ (i : Instr) (s : State), s.fault = 0#4 →
    (Ready i s → ∃ (t : State) (d : BitVec 8), exec i s = .next t ∧ t.fault = 0#4 ∧
      t.responses = s.responses ++ [d.setWidth 32]) ∧
    (¬ Ready i s → ∃ (t : State) (c : Cause), exec i s = .next t ∧ t.fault = causeCode c ∧
      t.engine1 = s.engine1 ∧ t.engine2 = s.engine2 ∧
      t.responses = s.responses ++ [(causeCode c).setWidth 32 <<< 28])

/-! ### Whole-machine rules -/

/-- R65: a command that raises a fault writes `FAULT`, with a code 1 to 4, and no other register; its response carries
the code and no data. -/
def Obligations.FaultingCommandWritesOnlyFault : Prop :=
  ∀ (s : State) (w : Word) (rest : List Input), s.inputs = .command w :: rest → s.fault = 0#4 →
    ∃ t, step s = .next t ∧ t.fault.toNat ≤ 4 ∧
      (t.fault ≠ 0#4 → t =
        { s with inputs := rest, fault := t.fault, responses := s.responses ++ [t.fault.setWidth 32 <<< 28] })

/-- R67: the first check that fails, in the order sticky, decode, operand, state, decides the response's status; `FAULT`
then holds that status, or, if it was not 0, what it held. -/
def Obligations.FirstFailedCheckDecidesStatus : Prop :=
  ∀ (s : State) (w : Word) (rest : List Input), s.inputs = .command w :: rest →
    ∃ (t : State) (d : BitVec 8), step s = .next t ∧
      t.responses = s.responses ++ [(checkedStatus w s).setWidth 32 <<< 28 ||| d.setWidth 32] ∧
      t.fault = if s.fault ≠ 0#4 then s.fault else checkedStatus w s

/-- R82: a run has gone wrong exactly when `FAULT ≠ 0` at its end, and the host can tell: after a command the run has
gone wrong exactly when that command's response carries a status other than `OK`. -/
def Obligations.WrongRunShowsInTheStatus : Prop :=
  ∀ (s : State) (w : Word) (rest : List Input), s.inputs = .command w :: rest →
    ∃ (t : State) (r : Word), step s = .next t ∧ t.responses = s.responses ++ [r] ∧ (WentWrong t ↔ r >>> 28 ≠ 0#32)

/-- R30, R74, R81: a step never stops; it takes the oldest input and no other, gives a command exactly one response, gives
`RESET` none, and leaves the seed ROM as it was (R21). With no input pending R73 says that the block is idle; that there is
a step then, which answers a next state and no response, is the model's choice (log entry 3). -/
def Obligations.EveryInputIsAnsweredOnce : Prop :=
  ∀ s : State, ∃ t, step s = .next t ∧ t.inputs = s.inputs.tail ∧ t.seedTable = s.seedTable ∧
    ((∃ w rest, s.inputs = .command w :: rest) → ∃ r, t.responses = s.responses ++ [r]) ∧
    ((¬ ∃ w rest, s.inputs = .command w :: rest) → t.responses = s.responses)

/-- R13: a command changes a tap mask only by constructing that engine: `LFSR.LOAD` of it, or `CA.INIT`. -/
def Obligations.MaskWrittenOnlyByConstruction : Prop :=
  ∀ (s t : State) (w : Word) (rest : List Input) (e : EngineId),
    s.inputs = .command w :: rest → step s = .next t → (t.engine e).m ≠ (s.engine e).m →
    (∃ seed taps, decode w = .ok (.lfsrLoad e 10 10 seed taps)) ∨ ∃ sv, decode w = .ok (.caInit sv)

/-- R79: a construction forgets the old instance: what it leaves in the engines depends on its operands (and the ROM) and
on nothing the engines held. -/
def Obligations.ConstructionForgetsOldInstance : Prop :=
  ∀ s t : State, s.fault = 0#4 → t.fault = 0#4 → s.seedTable = t.seedTable →
    (∀ sv, 1 ≤ sv → sv ≤ 32 → ∃ s' t', exec (.caInit sv) s = .next s' ∧ exec (.caInit sv) t = .next t' ∧
      s'.engine1 = t'.engine1 ∧ s'.engine2 = t'.engine2) ∧
    ∀ e seed taps, ∃ s' t', exec (.lfsrLoad e 10 10 seed taps) s = .next s' ∧
      exec (.lfsrLoad e 10 10 seed taps) t = .next t' ∧ s'.engine e = t'.engine e

/-- R19 ("The value is never observable"): two states that differ only in `R[e]`, `M[e]` of engines with `V[e] = 0` give
the same response to whatever comes next, and go on differing in no other way. (That a step with no input pending answers a
next state is the model's choice, log entry 3.) -/
def Obligations.UnconstructedContentsUnobservable : Prop :=
  ∀ s t : State, SameView s t → ∃ s' t', step s = .next s' ∧ step t = .next t' ∧ SameView s' t'

/-- R15, R19, R41, R63: every step keeps the invariant, from every state that meets it. (That the response words are the
eleven of R41's table rests on log entry 7, DEDUCED.) -/
def Obligations.StepKeepsBlockInvariant : Prop :=
  ∀ s t : State, Inv s → step s = .next t → Inv t

/-- The invariant holds at reset (R19). -/
def Obligations.ResetMeetsBlockInvariant : Prop := Inv State.reset

/-! ### A system of blocks -/

/-- R70, R74: a system starts with the blocks it was built with, each as its own reset leaves it, and every block of any
system reads the system's one ROM. That nothing is presented or answered yet is the model's choice (log entry 2). -/
def Obligations.SystemBlocksShareTheRom : Prop :=
  (∀ (ninst : Nat) (table : SeedTable) (k : Nat),
    (k < ninst → (System.reset ninst table).blockAt k = some { State.reset with seedTable := table }) ∧
    (ninst ≤ k → (System.reset ninst table).blockAt k = none)) ∧
  ∀ (sys : System) (k : Nat) (s : State), sys.blockAt k = some s → s.seedTable = sys.seedTable

/-- R70 ("commands to one block never change another"): a step of block `j` is that block's own step, it leaves every other
block and the shared ROM as they were, and neither makes a block nor removes one. (An idle block's step is log entry 3; one
block at a time is log entry 8.) -/
def Obligations.StepChangesOnlyItsOwnBlock : Prop :=
  ∀ (j : Nat) (sys : System), ∃ out, stepBlock j sys = .next out ∧
    (∀ s, sys.blockAt j = some s → ∃ t, step s = .next t ∧ out.blockAt j = some t) ∧
    (∀ k, k ≠ j → out.blockAt k = sys.blockAt k) ∧
    out.seedTable = sys.seedTable ∧ out.blocks.length = sys.blocks.length

/-- R70: in any schedule of any number of blocks, each block ends as it ends when its own steps are run alone. (Blocks are
stepped one at a time by log entry 8, and an idle block's step is log entry 3.) -/
def Obligations.BlocksRunAsIfAlone : Prop :=
  ∀ (schedule : List Nat) (sys : System) (k : Nat) (s : State), sys.blockAt k = some s →
    ∃ out t, runSchedule schedule sys = .next out ∧ Sys2Proof.core.run (schedule.count k) s = .next t ∧
      out.blockAt k = some t

/-- R70: two blocks of one system given `CA.INIT` with the same `sv` and then `n` times `CA.NEXT` give the same chips at
every index, `chip_0` to `chip_(n-1)` of that SV (R60), whatever the shared ROM holds, whatever the blocks held before, and
however their steps are interleaved with each other and with those of other blocks. (One block at a time: log entry 8.) -/
def Obligations.SameSvGivesSameChipsOnTwoBlocks : Prop :=
  ∀ (schedule : List Nat) (sys : System) (j k : Nat) (s t : State) (sv n : Nat) (word : Reg) (restS restT : List Input),
    sys.blockAt j = some s → sys.blockAt k = some t → s.fault = 0#4 → t.fault = 0#4 →
    1 ≤ sv → sv ≤ 32 → sys.seedTable[sv - 1]? = some word →
    s.inputs = .command (0x60000000#32 ||| BitVec.ofNat 32 sv) :: (List.replicate n (.command 0x80000000#32) ++ restS) →
    t.inputs = .command (0x60000000#32 ||| BitVec.ofNat 32 sv) :: (List.replicate n (.command 0x80000000#32) ++ restT) →
    schedule.count j = n + 1 → schedule.count k = n + 1 →
    ∃ out s' t', runSchedule schedule sys = .next out ∧ out.blockAt j = some s' ∧ out.blockAt k = some t' ∧
      s'.responses = s.responses ++ [0x00000000#32] ++ (List.range n).map (fun i => chipWord (chipSeq word i)) ∧
      t'.responses = t.responses ++ [0x00000000#32] ++ (List.range n).map (fun i => chipWord (chipSeq word i)) ∧
      s'.engine1 = t'.engine1 ∧ s'.engine2 = t'.engine2

/-! ### Sequences -/

/-- R50: `n` pulls of a constructed engine, in any state and whichever engine it is, answer `out_0` to `out_(n-1)` of what
it holds, leave `r_n` in `R[e]`, and change nothing else. -/
def Obligations.PulledBitsFollowOutputSequence : Prop :=
  ∀ (s : State) (n : Nat), s.fault = 0#4 →
    (s.engine1.v = true → execAll (expand (.lfsrPull .lfsr1 n)) s = .next
      { s with
        engine1 := { s.engine1 with r := stateSeq s.engine1.r s.engine1.m n }
        responses := s.responses ++ (List.range n).map fun k => bitWord (outSeq s.engine1.r s.engine1.m k) }) ∧
    (s.engine2.v = true → execAll (expand (.lfsrPull .lfsr2 n)) s = .next
      { s with
        engine2 := { s.engine2 with r := stateSeq s.engine2.r s.engine2.m n }
        responses := s.responses ++ (List.range n).map fun k => bitWord (outSeq s.engine2.r s.engine2.m k) })

/-- R51: the first ten outputs are the seed read from the rear, whatever the mask; from the eleventh on the outputs are
the bits fed back ten steps before. -/
def Obligations.FirstTenOutputsAreTheSeed : Prop :=
  ∀ (seed m : Reg) (k : Nat),
    (k < 10 → outSeq seed m k = seed.getLsbD k) ∧ outSeq seed m (10 + k) = feedback (stateSeq seed m k) m

/-- R52: the zero state is a fixed point under every mask, so a zero seed outputs 0 for ever. -/
def Obligations.ZeroSeedOutputsZeros : Prop :=
  ∀ (m : Reg) (k : Nat), stateSeq 0x000#10 m k = 0x000#10 ∧ outSeq 0x000#10 m k = false

/-- R52: the step is a bijection on the register's values exactly when the rear is tapped. -/
def Obligations.StepBijectiveExactlyWhenRearTapped : Prop :=
  ∀ m : Reg, Function.Bijective (fun r : Reg => shifted r m) ↔ m.getLsbD 0 = true

/-- R52: under each of the two GPS masks every non-zero state returns exactly at the multiples of 1023 steps, and all
non-zero states lie on the one cycle. -/
def Obligations.BothMasksCycleThrough1023States : Prop :=
  ∀ m : Reg, m = 0x081#10 ∨ m = 0x197#10 → ∀ r : Reg, r ≠ 0x000#10 →
    (∀ n, stateSeq r m n = r ↔ 1023 ∣ n) ∧ ∀ q : Reg, q ≠ 0x000#10 → ∃ n, n < 1023 ∧ stateSeq r m n = q

/-- R53: two engines loaded with the same seed and mask do not interfere: any number of pulls of engine 1 leaves engine 2
to give its own sequence from the start. -/
def Obligations.EnginesDoNotInterfere : Prop :=
  ∀ (s : State) (seed m : Reg) (n k : Nat), s.fault = 0#4 →
    execAll ([.lfsrLoad .lfsr1 10 10 seed m, .lfsrLoad .lfsr2 10 10 seed m] ++
        expand (.lfsrPull .lfsr1 n) ++ expand (.lfsrPull .lfsr2 k)) s = .next
      { s with
        engine1 := { r := stateSeq seed m n, m := m, v := true }
        engine2 := { r := stateSeq seed m k, m := m, v := true }
        responses := s.responses ++ [0x00000000#32, 0x00000000#32] ++
          ((List.range n).map fun j => bitWord (outSeq seed m j)) ++
          ((List.range k).map fun j => bitWord (outSeq seed m j)) }

/-- R60: from any state without a fault, and for any contents of the ROM, the generator of SV `sv` answers `n` pulls with
`chip_0` to `chip_(n-1)` of that SV. -/
def Obligations.PulledChipsFollowChipSequence : Prop :=
  ∀ (s : State) (sv : Nat) (word : Reg) (n : Nat),
    s.fault = 0#4 → 1 ≤ sv → sv ≤ 32 → s.seedTable[sv - 1]? = some word →
    execAll (expand (.caCodeGen sv) ++ expand (.caPull n)) s = .next
      { s with
        engine1 := { r := stateSeq 0x3FF#10 0x081#10 n, m := 0x081#10, v := true }
        engine2 := { r := stateSeq word 0x197#10 n, m := 0x197#10, v := true }
        responses := s.responses ++ [0x00000000#32] ++ (List.range n).map fun k => chipWord (chipSeq word k) }

/-- R60: whatever the SV's ROM word, the chips repeat every 1023 and both registers are then back at their seeds. -/
def Obligations.ChipsRepeatEvery1023 : Prop :=
  ∀ word : Reg,
    (∀ k, chipSeq word (k + 1023) = chipSeq word k) ∧
    stateSeq 0x3FF#10 0x081#10 1023 = 0x3FF#10 ∧ stateSeq word 0x197#10 1023 = word

/-- R60: the first ten chips are the complement of the SV's ROM word read from the rear. -/
def Obligations.FirstTenChipsComplementTheSeed : Prop :=
  ∀ (word : Reg) (k : Nat), k < 10 → chipInt (chipSeq word k) = if word.getLsbD k then -1 else 1

/-- R76: one raw `LFSR.STEP 1` after `CA.INIT` shifts G1 by one chip against G2 in every chip that follows. -/
def Obligations.RawStepShiftsG1AgainstG2 : Prop :=
  ∀ (s : State) (sv : Nat) (word : Reg) (n : Nat),
    s.fault = 0#4 → 1 ≤ sv → sv ≤ 32 → s.seedTable[sv - 1]? = some word →
    ∃ t, execAll ([.caInit sv, .lfsrStep .lfsr1] ++ expand (.caPull n)) s = .next t ∧
      t.responses = s.responses ++ [0x00000000#32, 0x00000001#32] ++ (List.range n).map fun k =>
        chipWord (chipOf (Bool.xor (outSeq 0x3FF#10 0x081#10 (k + 1)) (outSeq word 0x197#10 k)))

/-- The words the pseudo-commands of R44 stand for: R44 gives the words of `G1.LOAD` and `G2.LOAD` and the expansions of the
others, whose words are those of R36, R37 and R38. -/
def Obligations.PseudoCommandsAssemble : Prop :=
  (expand .g1Load).map encode = [0x2AAFFC81#32] ∧
    (∀ seed : Reg, (expand (.g2Load seed)).map encode = [0x3AA00197#32 ||| seed.setWidth 32 <<< 10]) ∧
    (∀ n, (expand (.caPull n)).map encode = List.replicate n 0x80000000#32) ∧
    (∀ n, (expand (.lfsrPull .lfsr1 n)).map encode = List.replicate n 0x40000000#32 ∧
      (expand (.lfsrPull .lfsr2 n)).map encode = List.replicate n 0x50000000#32) ∧
    (∀ sv, sv ≤ 255 → (expand (.caCodeGen sv)).map encode = [BitVec.ofNat 32 (0x60000000 + sv)]) ∧
    (∀ (e : EngineId) (seed taps : Reg), expand (.lfsr e seed taps) = [.lfsrLoad e 10 10 seed taps]) ∧
    expand .harness = (List.range' 1 32).flatMap fun sv => expand (.caCodeGen sv) ++ expand (.caPull 10)
end

