-- ==== Sys2Proof/Laws/Decode.lean ====
section
/-! SUPPORT. Small lemmas of the decoder and the encoder: the engine field, the fields of each encoded word, and every
way decoding can end. -/

namespace Sys2Proof

@[simp] theorem engineOfBit_bitOfEngine (e : EngineId) : engineOfBit (bitOfEngine e) = e := by cases e <;> rfl
@[simp] theorem bitOfEngine_engineOfBit (u : Bool) : bitOfEngine (engineOfBit u) = u := by cases u <;> rfl

/-- Every way decoding can end (R40). -/
theorem decode_cases (w : Word) :
    (opField w = 1 ∧ decode w = .ok (decodeLoad w)) ∨
    (opField w = 2 ∧ decode w = decodeStep w) ∨
    (opField w = 3 ∧ decode w = decodeInit w) ∨
    (opField w = 4 ∧ decode w = decodeNext w) ∨
    ((opField w ≠ 1 ∧ opField w ≠ 2 ∧ opField w ≠ 3 ∧ opField w ≠ 4) ∧ decode w = .error .reservedOp) := by
  unfold decode
  split_ifs with h1 h2 h3 h4
  · exact .inl ⟨h1, rfl⟩
  · exact .inr (.inl ⟨h2, rfl⟩)
  · exact .inr (.inr (.inl ⟨h3, rfl⟩))
  · exact .inr (.inr (.inr (.inl ⟨h4, rfl⟩)))
  · exact .inr (.inr (.inr (.inr ⟨⟨h1, h2, h3, h4⟩, rfl⟩)))

/-- The operation field of an encoded instruction (R34). -/
theorem opField_encodeStep (e : EngineId) : opField (encodeStep e) = 2 := by cases e <;> decide
@[inherit_doc opField_encodeStep] theorem opField_encodeNext : opField encodeNext = 4 := by decide

section
variable (e : EngineId) (slen tlen sv : Nat) (seed taps : Reg)

/-- The fields of an encoded `LFSR.LOAD` stand where R35 puts them. -/
theorem opField_encodeLoad : opField (encodeLoad e slen tlen seed taps) = 1 := by
  apply BitVec.eq_of_getLsbD_eq
  intro b hb
  simp only [encodeLoad, opField, placed]
  interval_cases b <;> simp

@[inherit_doc opField_encodeLoad]
theorem slen_encodeLoad : (encodeLoad e slen tlen seed taps).extractLsb' 24 4 = BitVec.ofNat 4 slen := by
  apply BitVec.eq_of_getLsbD_eq
  intro b hb
  simp only [encodeLoad, placed]
  interval_cases b <;> simp

@[inherit_doc opField_encodeLoad]
theorem tlen_encodeLoad : (encodeLoad e slen tlen seed taps).extractLsb' 20 4 = BitVec.ofNat 4 tlen := by
  apply BitVec.eq_of_getLsbD_eq
  intro b hb
  simp only [encodeLoad, placed]
  interval_cases b <;> simp

@[inherit_doc opField_encodeLoad]
theorem seed_encodeLoad : (encodeLoad e slen tlen seed taps).extractLsb' 10 10 = seed := by
  apply BitVec.eq_of_getLsbD_eq
  intro b hb
  simp only [encodeLoad, placed]
  interval_cases b <;> simp

@[inherit_doc opField_encodeLoad]
theorem taps_encodeLoad : (encodeLoad e slen tlen seed taps).extractLsb' 0 10 = taps := by
  apply BitVec.eq_of_getLsbD_eq
  intro b hb
  simp only [encodeLoad, placed]
  interval_cases b <;> simp

@[inherit_doc opField_encodeLoad]
theorem engineField_encodeLoad : engineField (encodeLoad e slen tlen seed taps) = e := by
  have h : (encodeLoad e slen tlen seed taps).getLsbD 28 = bitOfEngine e := by simp [encodeLoad, placed]
  rw [engineField, h, engineOfBit_bitOfEngine]

/-- The fields of an encoded `CA.INIT` stand where R37 puts them. -/
theorem opField_encodeInit : opField (encodeInit sv) = 3 := by
  apply BitVec.eq_of_getLsbD_eq
  intro b hb
  simp only [encodeInit, opField, placed]
  interval_cases b <;> simp

@[inherit_doc opField_encodeInit]
theorem zero_encodeInit : (encodeInit sv).extractLsb' 8 21 = 0 := by
  apply BitVec.eq_of_getLsbD_eq
  intro b hb
  simp only [encodeInit, placed]
  interval_cases b <;> simp

@[inherit_doc opField_encodeInit]
theorem sv_encodeInit : (encodeInit sv).extractLsb' 0 8 = BitVec.ofNat 8 sv := by
  apply BitVec.eq_of_getLsbD_eq
  intro b hb
  simp only [encodeInit, placed]
  interval_cases b <;> simp

end

end Sys2Proof
end

