-- ==== Sys2Proof/Laws/State.lean ====
section
/-! SUPPORT. One small lemma per field and update: what each named update of the state does to each field. -/

namespace Sys2Proof.Machine

variable (s : State) (e e' : EngineId) (g : Engine) (st : BitVec 4) (d : BitVec 8) (c : Cause)

@[simp] theorem engine_lfsr1 : s.engine .lfsr1 = s.engine1 := rfl
@[simp] theorem engine_lfsr2 : s.engine .lfsr2 = s.engine2 := rfl

@[simp] theorem setEngine_lfsr1_engine1 : (s.setEngine .lfsr1 g).engine1 = g := rfl
@[simp] theorem setEngine_lfsr1_engine2 : (s.setEngine .lfsr1 g).engine2 = s.engine2 := rfl
@[simp] theorem setEngine_lfsr2_engine1 : (s.setEngine .lfsr2 g).engine1 = s.engine1 := rfl
@[simp] theorem setEngine_lfsr2_engine2 : (s.setEngine .lfsr2 g).engine2 = g := rfl
@[simp] theorem setEngine_fault : (s.setEngine e g).fault = s.fault := by cases e <;> rfl
@[simp] theorem setEngine_seedTable : (s.setEngine e g).seedTable = s.seedTable := by cases e <;> rfl
@[simp] theorem setEngine_inputs : (s.setEngine e g).inputs = s.inputs := by cases e <;> rfl
@[simp] theorem setEngine_responses : (s.setEngine e g).responses = s.responses := by cases e <;> rfl

/-- A write of one engine is read back. -/
@[simp] theorem engine_setEngine_self : (s.setEngine e g).engine e = g := by cases e <;> rfl

/-- A write of one engine leaves the other as it was (R20). -/
theorem engine_setEngine_of_ne (h : e' ≠ e) : (s.setEngine e g).engine e' = s.engine e' := by
  cases e <;> cases e' <;> first | rfl | exact absurd rfl h

@[simp] theorem respond_engine1 : (respond s st d).engine1 = s.engine1 := rfl
@[simp] theorem respond_engine2 : (respond s st d).engine2 = s.engine2 := rfl
@[simp] theorem respond_engine : (respond s st d).engine e = s.engine e := by cases e <;> rfl
@[simp] theorem respond_fault : (respond s st d).fault = s.fault := rfl
@[simp] theorem respond_seedTable : (respond s st d).seedTable = s.seedTable := rfl
@[simp] theorem respond_inputs : (respond s st d).inputs = s.inputs := rfl
@[simp] theorem respond_responses : (respond s st d).responses = s.responses ++ [responseWord st d] := rfl

@[simp] theorem raiseFault_engine1 : (raiseFault s c).engine1 = s.engine1 := rfl
@[simp] theorem raiseFault_engine2 : (raiseFault s c).engine2 = s.engine2 := rfl
@[simp] theorem raiseFault_fault : (raiseFault s c).fault = causeCode c := rfl
@[simp] theorem raiseFault_seedTable : (raiseFault s c).seedTable = s.seedTable := rfl
@[simp] theorem raiseFault_inputs : (raiseFault s c).inputs = s.inputs := rfl
@[simp] theorem raiseFault_responses :
    (raiseFault s c).responses = s.responses ++ [responseWord (causeCode c) 0#8] := rfl

@[simp] theorem refuseFaulted_engine1 : (refuseFaulted s).engine1 = s.engine1 := rfl
@[simp] theorem refuseFaulted_engine2 : (refuseFaulted s).engine2 = s.engine2 := rfl
@[simp] theorem refuseFaulted_fault : (refuseFaulted s).fault = s.fault := rfl
@[simp] theorem refuseFaulted_seedTable : (refuseFaulted s).seedTable = s.seedTable := rfl
@[simp] theorem refuseFaulted_inputs : (refuseFaulted s).inputs = s.inputs := rfl
@[simp] theorem refuseFaulted_responses :
    (refuseFaulted s).responses = s.responses ++ [responseWord statusFaulted (s.fault.setWidth 8)] := rfl

@[simp] theorem stepEngine_fault : (stepEngine s e).fault = s.fault := by cases e <;> rfl
@[simp] theorem stepEngine_seedTable : (stepEngine s e).seedTable = s.seedTable := by cases e <;> rfl
@[simp] theorem stepEngine_inputs : (stepEngine s e).inputs = s.inputs := by cases e <;> rfl
@[simp] theorem stepEngine_responses : (stepEngine s e).responses = s.responses := by cases e <;> rfl

/-- What a step leaves in its own engine (R47). -/
@[simp] theorem engine_stepEngine_self :
    (stepEngine s e).engine e = { s.engine e with r := shifted (s.engine e).r (s.engine e).m } := by
  cases e <;> rfl

/-- A step leaves the other engine as it was (R20, R47). -/
theorem engine_stepEngine_of_ne (h : e' ≠ e) : (stepEngine s e).engine e' = s.engine e' :=
  engine_setEngine_of_ne s e e' _ h

@[simp] theorem resetEvent_engine1 : (resetEvent s).engine1 = Engine.blank := rfl
@[simp] theorem resetEvent_engine2 : (resetEvent s).engine2 = Engine.blank := rfl
@[simp] theorem resetEvent_fault : (resetEvent s).fault = 0#4 := rfl
@[simp] theorem resetEvent_seedTable : (resetEvent s).seedTable = s.seedTable := rfl
@[simp] theorem resetEvent_inputs : (resetEvent s).inputs = s.inputs := rfl
@[simp] theorem resetEvent_responses : (resetEvent s).responses = s.responses := rfl

end Sys2Proof.Machine
end

