-- ==== Sys2Proof/Laws/Ops.lean ====
section
/-! SUPPORT. What each shared operation can do, said once: the sticky check, the ROM read, the response word, the
engine's shift, and taking an input. -/

namespace Sys2Proof.Machine

/-- Every way the sticky check can end (R66). -/
theorem unlessFaulted_cases (s : State) (go : Host.Outcome State Fault Refusal) :
    (s.fault ≠ 0#4 ∧ unlessFaulted s go = .next (refuseFaulted s)) ∨ (s.fault = 0#4 ∧ unlessFaulted s go = go) := by
  by_cases h : s.fault = 0#4
  · exact .inr ⟨h, by simp [unlessFaulted, faulted, h]⟩
  · exact .inl ⟨h, by simp [unlessFaulted, faulted, h]⟩

theorem unlessFaulted_of_clear {s : State} (go : Host.Outcome State Fault Refusal) (h : s.fault = 0#4) :
    unlessFaulted s go = go := by
  simp [unlessFaulted, faulted, h]

theorem unlessFaulted_of_faulted {s : State} (go : Host.Outcome State Fault Refusal) (h : s.fault ≠ 0#4) :
    unlessFaulted s go = .next (refuseFaulted s) := by
  simp [unlessFaulted, faulted, h]

/-- The ROM answers at every existing address with the word that stands there (R22, R24). -/
theorem romRead_of_mem (s : State) (sv : Nat) (h1 : 1 ≤ sv) (h2 : sv ≤ 32) :
    romRead s sv = some (s.seedTable[sv - 1]'(by omega)) := by
  have h : sv - 1 < 32 := by omega
  simp [romRead, Config.svFirst, Config.svLast, h1, h2, h]

/-- The ROM answers nowhere else (R24, R27). -/
theorem romRead_of_not_mem (s : State) (sv : Nat) (h : sv < 1 ∨ 32 < sv) : romRead s sv = none := by
  have h' : ¬ (1 ≤ sv ∧ sv ≤ 32) := by omega
  exact if_neg h'

/-- The response word of a bit (R41). -/
theorem responseWord_bit (b : Bool) : responseWord statusOk (bitByte b) = if b then 0x00000001#32 else 0x00000000#32 := by
  cases b <;> decide

/-- The response word of a chip (R41, R42). -/
theorem responseWord_chip (c : Chip) :
    responseWord statusOk (chipByte c) = match c with | .plusOne => 0x00000001#32 | .minusOne => 0x000000FF#32 := by
  cases c <;> decide

/-- The response word of a fault: its code in the status field, no data (R41, R65). -/
theorem responseWord_cause (c : Cause) : responseWord (causeCode c) 0#8 = (causeCode c).setWidth 32 <<< 28 := by
  cases c <;> decide

/-- The response word of a refusal: 0xF0000000 with `FAULT` in the low bits (R66). -/
theorem responseWord_refusal (f : BitVec 4) :
    responseWord statusFaulted (f.setWidth 8) = 0xF0000000#32 ||| f.setWidth 32 := by
  revert f; decide

/-- The front bit of the shift is the feedback (R47). -/
theorem shifted_front (r m : Reg) : (shifted r m).getLsbD 9 = feedback r m := by
  rw [shifted, BitVec.getLsbD_cons, if_pos rfl]

/-- Every other bit is the next bit toward the front (R47). -/
theorem shifted_body (r m : Reg) (b : Nat) (h : b < 9) : (shifted r m).getLsbD b = r.getLsbD (b + 1) := by
  have hb : b ≠ 9 := by omega
  simp [shifted, BitVec.getLsbD_cons, hb, h, Nat.add_comm]

/-- The empty exclusive-or is 0 (R46, D14). -/
theorem feedback_zero_mask (r : Reg) : feedback r 0#10 = false := by
  simp [feedback, parity]

/-- Every way an input can be taken (R73, R82). -/
theorem takeInput_cases (s : State) :
    (s.inputs = [] ∧ takeInput s = .next s) ∨
      ∃ x rest, s.inputs = x :: rest ∧ takeInput s = present x { s with inputs := rest } := by
  cases h : s.inputs with
  | nil => exact .inl ⟨rfl, by simp [takeInput, h]⟩
  | cons x rest => exact .inr ⟨x, rest, rfl, by simp [takeInput, h]⟩

end Sys2Proof.Machine
end

