-- ==== Sys2Proof/Laws/PerInstr.lean ====
section
/-! SUPPORT. Statements made per instruction: an encoded instruction lies in its own row of the opcode table (R40). -/

namespace Sys2Proof.Laws.OpcodeRow

/-- The word of `i` matches the mask and match value of `i`'s row (R40), whatever its operands. -/
def Statement (i : Instr) : Prop := encode i &&& rowMask i = rowMatch i

/-- The masked top bits of a word of format L (R35). -/
theorem lfsrLoad (e : EngineId) (slen tlen : Nat) (seed taps : Reg) :
    Statement (.lfsrLoad e slen tlen seed taps) := by
  apply BitVec.eq_of_getLsbD_eq
  intro b hb
  simp only [encode, encodeLoad, placed, rowMask, rowMatch]
  interval_cases b <;> simp

theorem lfsrStep (e : EngineId) : Statement (.lfsrStep e) := by cases e <;> unfold Statement <;> decide

theorem caInit (sv : Nat) : Statement (.caInit sv) := by
  apply BitVec.eq_of_getLsbD_eq
  intro b hb
  simp only [encode, encodeInit, placed, rowMask, rowMatch]
  interval_cases b <;> simp

theorem caNext : Statement .caNext := by unfold Statement; decide

end Sys2Proof.Laws.OpcodeRow
end

