-- ==== Sys2Proof/Laws/Step.lean ====
section
/-! SUPPORT. What a command and a step can do, said once, in the terms of the shared operations; and how the sequences of
R50 unfold from the front. Every claim about `exec` or `step` can be read off these without unfolding a meaning. -/

namespace Sys2Proof.Machine

/-- A command's meaning on a faulted block (R66). -/
theorem exec_of_faulted (i : Instr) (s : State) (h : s.fault ≠ 0#4) : exec i s = .next (refuseFaulted s) := by
  cases i <;> exact unlessFaulted_of_faulted _ h

/-- Every way a command can end on a block with no fault recorded (R48, R49, R57, R58): it raises a cause, or it has its
own effect under its own conditions. -/
theorem exec_cases (i : Instr) (s : State) (hf : s.fault = 0#4) :
    (∃ c, exec i s = .next (raiseFault s c)) ∨
    (∃ e seed taps, i = .lfsrLoad e 10 10 seed taps ∧
      exec i s = .next (respond (s.setEngine e ⟨seed, taps, true⟩) statusOk 0#8)) ∨
    (∃ e, i = .lfsrStep e ∧ (s.engine e).v = true ∧
      exec i s = .next (respond (stepEngine s e) statusOk (bitByte (stepOutput s e)))) ∨
    (∃ sv word, i = .caInit sv ∧ 1 ≤ sv ∧ sv ≤ 32 ∧ romRead s sv = some word ∧
      exec i s = .next (respond ((s.setEngine .lfsr1 g1Engine).setEngine .lfsr2 (g2Engine word)) statusOk 0#8)) ∨
    (i = .caNext ∧ s.engine1.v = true ∧ s.engine2.v = true ∧
      exec i s = .next (respond (stepEngine (stepEngine s .lfsr1) .lfsr2) statusOk
        (chipByte (chipOf (Bool.xor (stepOutput s .lfsr1) (stepOutput s .lfsr2)))))) := by
  cases i with
  | lfsrLoad e slen tlen seed taps =>
    rw [exec, execLfsrLoad, unlessFaulted_of_clear _ hf]
    split
    · exact .inl ⟨_, rfl⟩
    · rename_i h
      simp only [Config.vectorLength, ne_eq, not_or, not_not] at h
      obtain ⟨rfl, rfl⟩ := h
      exact .inr (.inl ⟨e, seed, taps, rfl, rfl⟩)
  | lfsrStep e =>
    rw [exec, execLfsrStep, unlessFaulted_of_clear _ hf]
    split
    · rename_i h
      exact .inr (.inr (.inl ⟨e, rfl, h, rfl⟩))
    · exact .inl ⟨_, rfl⟩
  | caInit sv =>
    rw [exec, execCaInit, unlessFaulted_of_clear _ hf]
    split
    · exact .inl ⟨_, rfl⟩
    · rename_i h
      simp only [Config.svFirst, Config.svLast] at h
      have hr := romRead_of_mem s sv (by omega) (by omega)
      rw [hr]
      exact .inr (.inr (.inr (.inl ⟨sv, _, rfl, by omega, by omega, hr, rfl⟩)))
  | caNext =>
    rw [exec, execCaNext, unlessFaulted_of_clear _ hf]
    split
    · rename_i h
      simp only [bothConfigured, Bool.and_eq_true] at h
      exact .inr (.inr (.inr (.inr ⟨rfl, h.1, h.2, rfl⟩)))
    · exact .inl ⟨_, rfl⟩

/-- A presented command word, once it is the oldest input (R82). -/
theorem step_of_command {s : State} {w : Word} {rest : List Input} (h : s.inputs = .command w :: rest) :
    step s = presentCommand w { s with inputs := rest } := by
  simp only [step, takeInput, h, present]

/-- Every way a step can end (R66, R67, R73, R74). -/
theorem step_cases (s : State) :
    (s.inputs = [] ∧ step s = .next s) ∨
    (∃ rest, s.inputs = .reset :: rest ∧ step s = .next (resetEvent { s with inputs := rest })) ∨
    ∃ w rest, s.inputs = .command w :: rest ∧
      ((s.fault ≠ 0#4 ∧ step s = .next (refuseFaulted { s with inputs := rest })) ∨
       (s.fault = 0#4 ∧ ∃ why, decode w = .error why ∧
          step s = .next (raiseFault { s with inputs := rest } .illegalCommand)) ∨
       (s.fault = 0#4 ∧ ∃ i, decode w = .ok i ∧ step s = exec i { s with inputs := rest })) := by
  rcases takeInput_cases s with ⟨h, ht⟩ | ⟨x, rest, h, ht⟩
  · exact .inl ⟨h, ht⟩
  · cases x with
    | reset => exact .inr (.inl ⟨rest, h, ht⟩)
    | command w =>
      refine .inr (.inr ⟨w, rest, h, ?_⟩)
      rw [step_of_command h, presentCommand]
      by_cases hf : s.fault = 0#4
      · rw [unlessFaulted_of_clear (s := { s with inputs := rest }) _ hf]
        cases hd : decode w with
        | error why => exact .inr (.inl ⟨hf, why, rfl, rfl⟩)
        | ok i => exact .inr (.inr ⟨hf, i, rfl, rfl⟩)
      · exact .inl ⟨hf, unlessFaulted_of_faulted _ hf⟩

/-- The state sequence from the front: the first step, then the sequence of what it leaves (R50). -/
theorem stateSeq_shifted (r m : Reg) (n : Nat) : stateSeq r m (n + 1) = stateSeq (shifted r m) m n := by
  induction n with
  | zero => rfl
  | succ n ih => rw [stateSeq, ih]; rfl

/-- The output sequence from the front (R50). -/
theorem outSeq_shifted (r m : Reg) (n : Nat) : outSeq r m (n + 1) = outSeq (shifted r m) m n := by
  rw [outSeq, stateSeq_shifted]; rfl

/-- Commands after a first one that answers a next state (R30). -/
theorem execAll_cons {i : Instr} {s t : State} (rest : List Instr) (h : exec i s = .next t) :
    execAll (i :: rest) s = execAll rest t := by
  rw [execAll, h]

end Sys2Proof.Machine
end

