-- ==== Sys2Proof/Laws/System.lean ====
section
/-! SUPPORT. A system of blocks: one small lemma per access and update, and what a step of one block can do, said once
(R70). -/

namespace Sys2Proof.Machine

variable (sys : System) (j k : Nat) (b : Block) (s t : State) (table : SeedTable)

@[simp] theorem withRom_seedTable : (b.withRom table).seedTable = table := rfl
@[simp] theorem block_withRom : (b.withRom table).block = b := rfl
@[simp] theorem withRom_block : s.block.withRom s.seedTable = s := rfl
@[simp] theorem setBlock_seedTable : (sys.setBlock j t).seedTable = sys.seedTable := rfl
@[simp] theorem setBlock_length : (sys.setBlock j t).blocks.length = sys.blocks.length := List.length_set

/-- A write of one block leaves every other as it was. -/
theorem blockAt_setBlock_of_ne (h : k ≠ j) : (sys.setBlock j t).blockAt k = sys.blockAt k := by
  rw [System.blockAt, System.setBlock, List.getElem?_set_ne h.symm, System.blockAt]

variable {sys j s t}

/-- Every block reads the system's ROM (R70). -/
theorem seedTable_of_blockAt (h : sys.blockAt j = some s) : s.seedTable = sys.seedTable := by
  obtain ⟨b, -, rfl⟩ := Option.map_eq_some_iff.mp h
  rfl

/-- A write of a block that exists is read back. -/
theorem blockAt_setBlock_self (h : sys.blockAt j = some s) (ht : t.seedTable = sys.seedTable) :
    (sys.setBlock j t).blockAt j = some t := by
  obtain ⟨b, hb, -⟩ := Option.map_eq_some_iff.mp h
  obtain ⟨hj, -⟩ := List.getElem?_eq_some_iff.mp hb
  rw [System.blockAt, System.setBlock, List.getElem?_set_self hj, Option.map_some, ← ht, withRom_block]

/-- No command stops a block or writes the ROM (R21, R63). -/
theorem exec_keeps_seedTable (i : Instr) (s : State) : ∃ t, exec i s = .next t ∧ t.seedTable = s.seedTable := by
  by_cases hf : s.fault = 0#4
  · rcases exec_cases i s hf with ⟨_, h⟩ | ⟨_, _, _, _, h⟩ | ⟨_, _, _, h⟩ | ⟨_, _, _, _, _, _, h⟩ | ⟨_, _, _, h⟩ <;>
      exact ⟨_, h, by simp⟩
  · exact ⟨_, exec_of_faulted i s hf, rfl⟩

/-- No step stops a block or writes the ROM (R21). -/
theorem step_keeps_seedTable (s : State) : ∃ t, step s = .next t ∧ t.seedTable = s.seedTable := by
  rcases step_cases s with ⟨_, h⟩ | ⟨_, _, h⟩ | ⟨_, _, _, ⟨_, h⟩ | ⟨_, _, _, h⟩ | ⟨_, i, _, h⟩⟩
  · exact ⟨_, h, rfl⟩
  · exact ⟨_, h, rfl⟩
  · exact ⟨_, h, rfl⟩
  · exact ⟨_, h, rfl⟩
  · rw [h]
    exact exec_keeps_seedTable i _

/-- A run of one block from its first step. -/
theorem run_of_step {s t : State} (n : Nat) (h : step s = .next t) :
    Sys2Proof.core.run (n + 1) s = Sys2Proof.core.run n t := by
  simp only [Host.Core.run, Sys2Proof.core, h]

/-- A schedule from its first step. -/
theorem runSchedule_of_stepBlock {j : Nat} {sys sys' : System} (rest : List Nat) (h : stepBlock j sys = .next sys') :
    runSchedule (j :: rest) sys = runSchedule rest sys' := by
  rw [runSchedule, h]

/-- Every way a step of one block can end (R70): no block has that number, or that block takes its own step and nothing
else changes. -/
theorem stepBlock_cases (j : Nat) (sys : System) :
    (sys.blockAt j = none ∧ stepBlock j sys = .next sys) ∨
    ∃ s t, sys.blockAt j = some s ∧ step s = .next t ∧ t.seedTable = sys.seedTable ∧
      stepBlock j sys = .next (sys.setBlock j t) := by
  cases h : sys.blockAt j with
  | none => exact .inl ⟨rfl, by rw [stepBlock, h]⟩
  | some s =>
    obtain ⟨t, ht, htable⟩ := step_keeps_seedTable s
    exact .inr ⟨s, t, rfl, ht, htable.trans (seedTable_of_blockAt h), by simp only [stepBlock, h, ht]⟩

end Sys2Proof.Machine
end

