-- ==== Sys2Proof/Tests/Slice0.lean ====
section
/-! SUPPORT. Small tests whose expected results are vectors of spec/95_test_vectors.md and spec/96_test_vectors_part2.md
(or hand calculation from a rule), and one witness for the hypotheses of each claim. -/

namespace Sys2Proof.Tests

open Sys2Proof Sys2Proof.Machine

/-! ### Helpers -/

/-- The registers in the order the vectors list them, and the responses. -/
structure View where
  r1 : Reg
  m1 : Reg
  v1 : Bool
  r2 : Reg
  m2 : Reg
  v2 : Bool
  fault : BitVec 4
  responses : List Word
  deriving DecidableEq, Repr

def viewOf (s : State) : View :=
  ⟨s.engine1.r, s.engine1.m, s.engine1.v, s.engine2.r, s.engine2.m, s.engine2.v, s.fault, s.responses⟩

def seen : Host.Outcome State Fault Refusal → Option View
  | .next t => some (viewOf t)
  | .fault _ => none
  | .refused _ => none

/-- Only engine 1 constructed, as after `LFSR.LOAD 1, 0x3FF, 0x081`. -/
def oneLoaded : State := { State.reset with engine1 := ⟨0x3FF#10, 0x081#10, true⟩ }

/-- Both engines constructed, as after `CA.INIT 1` with the default table. -/
def bothLoaded : State := { oneLoaded with engine2 := ⟨0x3EC#10, 0x197#10, true⟩ }

/-- A block with fault 3 recorded. -/
def broken : State := { bothLoaded with fault := 3#4 }

/-- `s` with one word presented. -/
def offered (s : State) (w : Word) : State := { s with inputs := [.command w] }

/-! ### Well-formedness: each check refuses an ill-formed instruction -/

theorem test_wf_slen : (Instr.lfsrLoad .lfsr1 16 10 0 0).wellFormed = false := by decide
theorem test_wf_tlen : (Instr.lfsrLoad .lfsr1 10 16 0 0).wellFormed = false := by decide
theorem test_wf_sv : (Instr.caInit 256).wellFormed = false := by decide
theorem test_wf_edges :
    ((Instr.lfsrLoad .lfsr2 15 15 0 0).wellFormed && (Instr.caInit 255).wellFormed &&
      (Instr.lfsrStep .lfsr2).wellFormed && Instr.caNext.wellFormed) = true := by decide

/-! ### Decoding: words written out from the formats (V-E1 to V-E32) -/

/-- Format L, field by field: op 001, u 1, slen 1010, tlen 1010, seed 0x3EC, taps 0x197 (V-E4). -/
theorem test_decode_load :
    decode 0b001_1_1010_1010_1111101100_0110010111#32 = .ok (.lfsrLoad .lfsr2 10 10 0x3EC 0x197) := by decide

/-- A bad length is no illegal word (V-E7). -/
theorem test_decode_load_length :
    decode 0b001_0_1001_1001_1111111111_0010000001#32 = .ok (.lfsrLoad .lfsr1 9 9 0x3FF 0x081) := by decide

/-- Format U (V-E8, V-E9) and its must-be-zero bits at both ends (V-E10, V-E11). -/
theorem test_decode_step : decode 0b010_1_0000000000000000000000000000#32 = .ok (.lfsrStep .lfsr2) ∧
    decode 0x40000000#32 = .ok (.lfsrStep .lfsr1) ∧
    decode 0x40000001#32 = .error .reservedBit ∧ decode 0x48000000#32 = .error .reservedBit := by decide

/-- Format S (V-E15) and its must-be-zero bits at both ends (V-E19, V-E20). -/
theorem test_decode_init : decode 0b011_000000000000000000000_00100000#32 = .ok (.caInit 32) ∧
    decode 0x600000FF#32 = .ok (.caInit 255) ∧
    decode 0x60000100#32 = .error .reservedBit ∧ decode 0x70000001#32 = .error .reservedBit := by decide

/-- Format N (V-E22) and its must-be-zero bits at both ends (V-E23, V-E24). -/
theorem test_decode_next : decode 0b100_00000000000000000000000000000#32 = .ok .caNext ∧
    decode 0x80000001#32 = .error .reservedBit ∧ decode 0x90000000#32 = .error .reservedBit := by decide

/-- The reserved operation codes (V-E26, V-E29 to V-E32). -/
theorem test_decode_reserved : decode 0x00000000#32 = .error .reservedOp ∧ decode 0xA0000000#32 = .error .reservedOp ∧
    decode 0xC0000000#32 = .error .reservedOp ∧ decode 0xFFFFFFFF#32 = .error .reservedOp := by decide

/-- The opcode table's own numbers decode to the row's instruction. -/
theorem test_decode_table :
    decodeTableWord 32 0x20000000 = some (.lfsrLoad .lfsr1 0 0 0 0) ∧
    decodeTableWord 32 0x50000000 = some (.lfsrStep .lfsr2) ∧
    decodeTableWord 32 0x60000000 = some (.caInit 0) ∧ decodeTableWord 32 0x80000000 = some .caNext ∧
    decodeTableWord 32 0x80000001 = none := by decide

/-- Words of the spec's examples (R43, E4, P3): the encoder gives them. -/
theorem test_encode : encode (.lfsrLoad .lfsr1 9 10 0x3FE 0x000) = 0x29AFF800#32 ∧
    encode (.lfsrStep .lfsr2) = 0x50000000#32 ∧ encode (.caInit 33) = 0x60000021#32 ∧
    encode .caNext = 0x80000000#32 := by decide

/-! ### Operations -/

/-- `num` and `vec` on the vector R7 writes out. -/
theorem test_num : num #v[true, true, true, true, true, false, true, true, false, false] = 0x3EC#10 := by decide

/-- Single steps V-S3, V-S5, V-S8, V-S9, V-S11. -/
theorem test_shifts : shifted 0x07F#10 0x081#10 = 0x23F#10 ∧ shifted 0x3EC#10 0x197#10 = 0x3F6#10 ∧
    shifted 0x200#10 0x200#10 = 0x300#10 ∧ shifted 0x2CB#10 0x000#10 = 0x165#10 ∧
    shifted 0x155#10 0x3FF#10 = 0x2AA#10 := by decide

/-- The default table at its ends and beyond (R23, R24). -/
theorem test_rom : romRead State.reset 1 = some 0x3EC#10 ∧ romRead State.reset 32 = some 0x2B0#10 ∧
    romRead State.reset 0 = none ∧ romRead State.reset 33 = none := by decide

/-- Each row of the default table against R23's independent octal column of first ten C/A bits, first bit in the first
digit: those bits are the complement of the seed read from the rear. -/
theorem test_default_table :
    (defaultSeedTable.toList.map fun seed =>
      (List.range 10).foldl (fun n k => 2 * n + (!seed.getLsbD k).toNat) 0) =
    [0o1440, 0o1620, 0o1710, 0o1744, 0o1133, 0o1455, 0o1131, 0o1454, 0o1626, 0o1504, 0o1642, 0o1750, 0o1764, 0o1772,
     0o1775, 0o1776, 0o1156, 0o1467, 0o1633, 0o1715, 0o1746, 0o1763, 0o1063, 0o1706, 0o1743, 0o1761, 0o1770, 0o1774,
     0o1127, 0o1453, 0o1625, 0o1712] := by decide

/-! ### One command each, from the command vectors -/

/-- V-L2. -/
theorem test_load : seen (exec (.lfsrLoad .lfsr2 10 10 0x3EC 0x197) State.reset) =
    some ⟨0x000, 0x000, false, 0x3EC, 0x197, true, 0, [0x00000000]⟩ := by decide

/-- V-L8c, its second command: a malformed load leaves a constructed engine as it was. -/
theorem test_load_malformed : seen (exec (.lfsrLoad .lfsr1 9 10 0x000 0x3FF) oneLoaded) =
    some ⟨0x3FF, 0x081, true, 0x000, 0x000, false, 2, [0x20000000]⟩ := by decide

/-- V-L4, its second command: rear bit 0, feedback 1, engine 1 untouched. -/
theorem test_step : seen (exec (.lfsrStep .lfsr2) bothLoaded) =
    some ⟨0x3FF, 0x081, true, 0x3F6, 0x197, true, 0, [0x00000000]⟩ := by decide

/-- V-L5, its second command: engine 1 does not help engine 2. -/
theorem test_step_not_configured : seen (exec (.lfsrStep .lfsr2) oneLoaded) =
    some ⟨0x3FF, 0x081, true, 0x000, 0x000, false, 4, [0x40000000]⟩ := by decide

/-- V-C2: the highest legal SV. -/
theorem test_init : seen (exec (.caInit 32) State.reset) =
    some ⟨0x3FF, 0x081, true, 0x2B0, 0x197, true, 0, [0x00000000]⟩ := by decide

/-- V-C5: no reduction modulo 32. -/
theorem test_init_invalid : seen (exec (.caInit 64) State.reset) =
    some ⟨0x000, 0x000, false, 0x000, 0x000, false, 3, [0x30000000]⟩ := by decide

/-- V-C7, its second command: the first chip of SV 1. -/
theorem test_next : seen (exec .caNext bothLoaded) =
    some ⟨0x1FF, 0x081, true, 0x3F6, 0x197, true, 0, [0x00000001]⟩ := by decide

/-- V-C10, its second command: engine 1 is not half-stepped. -/
theorem test_next_half : seen (exec .caNext oneLoaded) =
    some ⟨0x3FF, 0x081, true, 0x000, 0x000, false, 4, [0x40000000]⟩ := by decide

/-! ### Steps -/

/-- V-F5: the decode check comes before the operand check. -/
theorem test_step_illegal : seen (step (offered State.reset 0x60000121)) =
    some ⟨0x000, 0x000, false, 0x000, 0x000, false, 1, [0x10000000]⟩ := by decide

/-- P3, line 2: a faulted block refuses a legal command and keeps everything. -/
theorem test_step_refused : seen (step (offered broken 0x80000000)) =
    some ⟨0x3FF, 0x081, true, 0x3EC, 0x197, true, 3, [0xF0000003]⟩ := by decide

/-- V-R1, its second input. -/
theorem test_step_reset : seen (step { broken with inputs := [.reset] }) =
    some ⟨0x000, 0x000, false, 0x000, 0x000, false, 0, []⟩ := by decide

/-- V-C1: a word placed for the host runs as the first instruction after reset. -/
theorem test_withFetchWord : seen (step (State.reset.withFetchWord 32 0x60000001)) =
    some ⟨0x3FF, 0x081, true, 0x3EC, 0x197, true, 0, [0x00000000]⟩ := by decide

/-! ### Lines and pseudo-commands (R43, R44) -/

/-- The lines of V-L7 and P3, and a literal word. -/
theorem test_lines : assemble (.lfsrLoadLen .lfsr2 9 0x3FE 10 0x000) = .command 0x39AFF800#32 ∧
    assemble (.caInit 33) = .command 0x60000021#32 ∧ assemble .reset = .reset ∧
    assemble (.word 0x60000121#32) = .command 0x60000121#32 := by decide

/-- Lines as E1, E4 and V-F5 write them. -/
theorem test_line_text :
    lineText (.lfsrLoad .lfsr1 0x3FF 0x081) = "LFSR.LOAD 1, [1,1,1,1,1,1,1,1,1,1], [0,0,1,0,0,0,0,0,0,1]" ∧
    lineText (.lfsrLoadLen .lfsr1 9 0x3FE 10 0x000) = "LFSR.LOAD 1, len=9:0x3FE, len=10:0x000" ∧
    lineText (.word 0x60000121) = ".word 0x60000121" := by decide

/-! ### Witnesses: a concrete state and operands that meet each claim's hypotheses, clause by clause -/

theorem witness_OnlyResetClearsTheBlock_reset :
    ({ broken with inputs := [.reset] } : State).inputs = Input.reset :: [] := rfl

theorem witness_OnlyResetClearsTheBlock_faulted : (offered broken 0x80000000).inputs = .command 0x80000000#32 :: [] ∧
    step (offered broken 0x80000000) = .next { broken with responses := [0xF0000003#32] } ∧
    (offered broken 0x80000000).fault ≠ 0#4 := ⟨rfl, rfl, by decide⟩

theorem witness_OnlyResetClearsTheBlock_valid : (offered bothLoaded 0).inputs = .command 0#32 :: [] ∧
    step (offered bothLoaded 0) = .next { bothLoaded with fault := 1#4, responses := [0x10000000#32] } ∧
    (offered bothLoaded 0).engine1.v = true ∧ (offered bothLoaded 0).engine2.v = true := ⟨rfl, rfl, rfl, rfl⟩

theorem witness_StepRunsDecodedCommand : (offered bothLoaded 0x80000000).inputs = .command 0x80000000#32 :: [] ∧
    decode 0x80000000#32 = .ok .caNext := ⟨rfl, by decide⟩

theorem witness_StepRunsDecodedCommand_faulted : (offered broken 0x80000000).fault ≠ 0#4 ∧
    (offered broken 0x80000000).inputs = .command 0x80000000#32 :: [] ∧ decode 0x80000000#32 = .ok .caNext :=
  ⟨by decide, rfl, by decide⟩

theorem witness_IllegalWordTakesFault : (offered bothLoaded 0xFFFFFFFF).inputs = .command 0xFFFFFFFF#32 :: [] ∧
    (offered bothLoaded 0xFFFFFFFF).fault = 0#4 ∧ decode 0xFFFFFFFF#32 = .error .reservedOp :=
  ⟨rfl, rfl, by decide⟩

theorem witness_FaultedBlockRefusesEveryCommand : (offered broken 0).inputs = .command 0#32 :: [] ∧
    (offered broken 0).fault ≠ 0#4 := ⟨rfl, by decide⟩

theorem witness_MeaningsRefuseWhileFaulted : broken.fault ≠ 0#4 := by decide

theorem witness_IdleBlockHoldsItsState : bothLoaded.inputs = [] := rfl

theorem witness_DecodeFollowsMaskTable :
    0x3FFFFFFF#32 &&& 0xE0000000#32 = 0x20000000#32 ∧ 0x50000000#32 &&& 0xEFFFFFFF#32 = 0x40000000#32 ∧
    0x600000FF#32 &&& 0xFFFFFF00#32 = 0x60000000#32 ∧ 0x80000000#32 &&& 0xFFFFFFFF#32 = 0x80000000#32 ∧
    (0x60000100#32 &&& 0xE0000000#32 ≠ 0x20000000#32 ∧ 0x60000100#32 &&& 0xEFFFFFFF#32 ≠ 0x40000000#32 ∧
      0x60000100#32 &&& 0xFFFFFF00#32 ≠ 0x60000000#32 ∧ 0x60000100#32 &&& 0xFFFFFFFF#32 ≠ 0x80000000#32) := by
  decide

theorem witness_DecodeInvertsEncode : (Instr.lfsrLoad .lfsr2 15 0 0x3FF 0x000).wellFormed = true ∧
    (Instr.caInit 255).wellFormed = true := by decide

theorem witness_EncodeInvertsDecode : decode 0x3FFFFFFF#32 = .ok (.lfsrLoad .lfsr2 15 15 0x3FF 0x3FF) := by decide

theorem witness_RomReadsExactlyThirtyTwoWords : (1 ≤ 32 ∧ 32 ≤ 32) ∧ ((0 : Nat) = 0 ∨ 33 ≤ 0) ∧ (33 = 0 ∨ 33 ≤ 33) := by
  decide

theorem witness_EngineStepShiftsOneEngine : (8 : Nat) < 9 ∧ EngineId.lfsr1 = .lfsr1 ∧ EngineId.lfsr2 = .lfsr2 := by decide

theorem witness_VectorNumeralMapsInvert : (9 : Nat) < 10 := by decide

theorem witness_TapMasksAreThePositions : 1 ≤ 10 ∧ 10 ≤ 10 := by decide

theorem witness_LfsrLoadConstructsOrRejects : (bothLoaded.fault = 0#4 ∧ (10 : Nat) = 10 ∧ (10 : Nat) = 10) ∧
    (bothLoaded.fault = 0#4 ∧ ((9 : Nat) ≠ 10 ∨ (10 : Nat) ≠ 10)) ∧ broken.fault ≠ 0#4 := by decide

theorem witness_LfsrStepAnswersRearBit : (bothLoaded.fault = 0#4 ∧ bothLoaded.engine1.v = true) ∧
    (bothLoaded.fault = 0#4 ∧ bothLoaded.engine2.v = true) ∧
    (State.reset.fault = 0#4 ∧ State.reset.engine1.v = false) ∧
    (oneLoaded.fault = 0#4 ∧ oneLoaded.engine2.v = false) ∧ broken.fault ≠ 0#4 := by decide

theorem witness_CaInitConstructsBothEngines : (bothLoaded.fault = 0#4 ∧ 1 ≤ 1 ∧ 1 ≤ 32) ∧ (1 ≤ 32 ∧ 32 ≤ 32) ∧
    (bothLoaded.fault = 0#4 ∧ (0 < 1 ∨ 32 < 0)) ∧ (33 < 1 ∨ 32 < 33) ∧ broken.fault ≠ 0#4 := by decide

theorem witness_CaNextAnswersChip :
    (bothLoaded.fault = 0#4 ∧ bothLoaded.engine1.v = true ∧ bothLoaded.engine2.v = true) ∧
    (oneLoaded.fault = 0#4 ∧ (oneLoaded.engine1.v = false ∨ oneLoaded.engine2.v = false)) ∧
    broken.fault ≠ 0#4 := by decide

theorem witness_CaInitEqualsTwoLoads : State.reset.fault = 0#4 ∧ 1 ≤ 32 ∧ 32 ≤ 32 ∧
    State.reset.seedTable[32 - 1]? = some 0x2B0#10 := by decide

theorem witness_SuccessfulPullsAnswerInAlphabet : bothLoaded.fault = 0#4 ∧ bothLoaded.engine1.v = true ∧
    bothLoaded.engine2.v = true ∧ (bothLoaded.engine .lfsr2).v = true := by decide

theorem witness_CommandCompletesExactlyWhenReady : oneLoaded.fault = 0#4 ∧
    (Ready (.lfsrLoad .lfsr2 10 10 0 0) oneLoaded ∧ Ready (.lfsrStep .lfsr1) oneLoaded ∧
      Ready (.caInit 32) oneLoaded ∧ Ready .caNext bothLoaded) ∧
    ¬ Ready (.lfsrLoad .lfsr2 10 9 0 0) oneLoaded ∧ ¬ Ready (.lfsrStep .lfsr2) oneLoaded ∧
    ¬ Ready (.caInit 33) oneLoaded ∧ ¬ Ready .caNext oneLoaded := by
  simp [Ready, oneLoaded, bothLoaded, State.reset, Engine.blank]

theorem witness_FaultingCommandWritesOnlyFault : (offered oneLoaded 0x80000000).inputs = .command 0x80000000#32 :: [] ∧
    (offered oneLoaded 0x80000000).fault = 0#4 := ⟨rfl, rfl⟩

theorem witness_FirstFailedCheckDecidesStatus :
    (offered broken 0x60000021).inputs = .command 0x60000021#32 :: [] := rfl

theorem witness_WrongRunShowsInTheStatus :
    (offered bothLoaded 0x80000000).inputs = .command 0x80000000#32 :: [] := rfl

theorem witness_EveryInputIsAnsweredOnce :
    (∃ w rest, (offered broken 0).inputs = .command w :: rest) ∧
    ¬ ∃ w rest, State.reset.inputs = .command w :: rest := ⟨⟨_, _, rfl⟩, by simp [State.reset]⟩

theorem witness_MaskWrittenOnlyByConstruction : (offered State.reset 0x2AAFFC81).inputs = .command 0x2AAFFC81#32 :: [] ∧
    step (offered State.reset 0x2AAFFC81) = .next { oneLoaded with responses := [0x00000000#32] } ∧
    (({ oneLoaded with responses := [0x00000000#32] } : State).engine .lfsr1).m ≠
      ((offered State.reset 0x2AAFFC81).engine .lfsr1).m := ⟨rfl, rfl, by decide⟩

theorem witness_ConstructionForgetsOldInstance : State.reset.fault = 0#4 ∧ bothLoaded.fault = 0#4 ∧
    State.reset.seedTable = bothLoaded.seedTable ∧ 1 ≤ 5 ∧ 5 ≤ 32 := ⟨rfl, rfl, rfl, by decide, by decide⟩

theorem witness_UnconstructedContentsUnobservable :
    SameView oneLoaded { oneLoaded with engine2 := ⟨0x2CB#10, 0x081#10, false⟩ } := by
  simp [SameView, SameEngineView, oneLoaded, State.reset, Engine.blank]

theorem witness_StepKeepsBlockInvariant : Inv (offered bothLoaded 0x80000000) ∧
    step (offered bothLoaded 0x80000000) = .next
      { bothLoaded with
        engine1 := ⟨0x1FF#10, 0x081#10, true⟩
        engine2 := ⟨0x3F6#10, 0x197#10, true⟩
        responses := [0x00000001#32] } :=
  ⟨⟨by decide, by decide, by decide, by simp [offered, bothLoaded, oneLoaded, State.reset]⟩, rfl⟩

/-- Two blocks that read the default ROM, one new and one used, each given `CA.INIT 32` and one `CA.NEXT`; the first has
a `RESET` to follow. -/
def twoBlocks : System :=
  { seedTable := defaultSeedTable
    blocks :=
      [{ State.reset.block with inputs := [.command 0x60000020#32, .command 0x80000000#32, .reset] },
       { bothLoaded.block with inputs := [.command 0x60000020#32, .command 0x80000000#32] }] }

/-- Block 0 of `twoBlocks` as a machine. -/
def twoBlocks0 : State :=
  { State.reset with inputs := [.command 0x60000020#32, .command 0x80000000#32, .reset] }

/-- Block 1 of `twoBlocks` as a machine. -/
def twoBlocks1 : State := { bothLoaded with inputs := [.command 0x60000020#32, .command 0x80000000#32] }

theorem witness_SystemBlocksShareTheRom : (1 : Nat) < 2 ∧ (2 : Nat) ≤ 2 ∧ twoBlocks.blockAt 1 = some twoBlocks1 := by decide

theorem witness_StepChangesOnlyItsOwnBlock : twoBlocks.blockAt 0 = some twoBlocks0 ∧ (1 : Nat) ≠ 0 := by decide

theorem witness_BlocksRunAsIfAlone : twoBlocks.blockAt 1 = some twoBlocks1 := by decide

/-- Blocks 0 and 1 in turn, with a number among them that names no block. -/
theorem witness_SameSvGivesSameChipsOnTwoBlocks :
    twoBlocks.blockAt 0 = some twoBlocks0 ∧ twoBlocks.blockAt 1 = some twoBlocks1 ∧
    twoBlocks0.fault = 0#4 ∧ twoBlocks1.fault = 0#4 ∧ 1 ≤ 32 ∧ 32 ≤ 32 ∧
    twoBlocks.seedTable[32 - 1]? = some 0x2B0#10 ∧
    twoBlocks0.inputs = .command (0x60000000#32 ||| BitVec.ofNat 32 32) ::
      (List.replicate 1 (.command 0x80000000#32) ++ [.reset]) ∧
    twoBlocks1.inputs = .command (0x60000000#32 ||| BitVec.ofNat 32 32) ::
      (List.replicate 1 (.command 0x80000000#32) ++ []) ∧
    [0, 1, 7, 1, 0].count 0 = 1 + 1 ∧ [0, 1, 7, 1, 0].count 1 = 1 + 1 := by decide

theorem witness_PulledBitsFollowOutputSequence : bothLoaded.fault = 0#4 ∧ bothLoaded.engine1.v = true ∧
    bothLoaded.engine2.v = true := by decide

theorem witness_FirstTenOutputsAreTheSeed : (9 : Nat) < 10 := by decide

theorem witness_BothMasksCycleThrough1023States : ((0x081#10 : Reg) = 0x081#10 ∨ (0x081#10 : Reg) = 0x197#10) ∧
    ((0x197#10 : Reg) = 0x081#10 ∨ (0x197#10 : Reg) = 0x197#10) ∧ (0x3FF#10 : Reg) ≠ 0x000#10 ∧
    (0x001#10 : Reg) ≠ 0x000#10 := by decide

theorem witness_EnginesDoNotInterfere : bothLoaded.fault = 0#4 := rfl

theorem witness_PulledChipsFollowChipSequence : bothLoaded.fault = 0#4 ∧ 1 ≤ 1 ∧ 1 ≤ 32 ∧
    bothLoaded.seedTable[1 - 1]? = some 0x3EC#10 := by decide

theorem witness_FirstTenChipsComplementTheSeed : (9 : Nat) < 10 := by decide

theorem witness_RawStepShiftsG1AgainstG2 : State.reset.fault = 0#4 ∧ 1 ≤ 32 ∧ 32 ≤ 32 ∧
    State.reset.seedTable[32 - 1]? = some 0x2B0#10 := by decide

theorem witness_PseudoCommandsAssemble : (255 : Nat) ≤ 255 := by decide

end Sys2Proof.Tests
end

/-! PROOFS. Vectors and numerals (R7), and the tap masks' positions (R56). -/

namespace Sys2Proof.Machine

/-- A numeral written front bit first, the weights falling to 1, is the library's `Nat.ofBits` read from the rear. -/
theorem sum_toNat_mul_two_pow_eq_ofBits_rev {n : Nat} (f : Fin n → Bool) :
    ∑ i : Fin n, (f i).toNat * 2 ^ (n - 1 - i.val) = Nat.ofBits (f ∘ Fin.rev) := by
  induction n with
  | zero => rfl
  | succ n ih =>
    have hrest : (f ∘ Fin.rev) ∘ Fin.succ = (f ∘ Fin.castSucc) ∘ Fin.rev := by
      funext i
      simp [Fin.rev_succ]
    have hweight (i : Fin n) : (f i.castSucc).toNat * 2 ^ (n - i.val) =
        2 * ((f i.castSucc).toNat * 2 ^ (n - 1 - i.val)) := by
      rw [show n - i.val = n - 1 - i.val + 1 by omega, pow_succ]
      ring
    rw [Nat.ofBits_succ, hrest, ← ih, Fin.sum_univ_castSucc, Finset.mul_sum]
    simp [hweight]

/-- `num` writes the elements front first into the word (R7). -/
theorem num_eq_ofFnBE (v : Vector Bool 10) : num v = BitVec.ofFnBE fun i : Fin 10 => v[i] := by
  have hsum : ((List.finRange 10).map fun i => v[i].toNat * 2 ^ (9 - i.val)).sum =
      Nat.ofBits ((fun i : Fin 10 => v[i]) ∘ Fin.rev) := by
    rw [← List.ofFn_eq_map, List.sum_ofFn]
    exact sum_toNat_mul_two_pow_eq_ofBits_rev fun i : Fin 10 => v[i]
  apply BitVec.eq_of_toNat_eq
  rw [num, hsum, BitVec.toNat_ofNat, Nat.mod_eq_of_lt (Nat.ofBits_lt_two_pow _), BitVec.toNat_ofFnBE]

/-- Element `i` of a vector is bit `9 - i` of its numeral (R7). -/
theorem getLsbD_num (v : Vector Bool 10) (i : Nat) (h : i < 10) : (num v).getLsbD (9 - i) = v[i] := by
  have hrev : Fin.rev (⟨9 - i, by omega⟩ : Fin 10) = ⟨i, h⟩ := Fin.ext (by simp; omega)
  rw [num_eq_ofFnBE, BitVec.getLsbD_ofFnBE, dif_pos (by omega), hrev]
  rfl

/-- Bit `9 - i` of a numeral is element `i` of its vector (R7). -/
@[simp] theorem getElem_vec (x : Reg) (i : Nat) (h : i < 10) : (vec x)[i] = x.getLsbD (9 - i) := by
  simp [vec]

theorem vec_num (v : Vector Bool 10) : vec (num v) = v :=
  Vector.ext fun i h => by rw [getElem_vec, getLsbD_num v i h]

theorem num_vec (x : Reg) : num (vec x) = x := by
  apply BitVec.eq_of_getLsbD_eq
  intro b hb
  have hbit : (num (vec x)).getLsbD (9 - (9 - b)) = x.getLsbD (9 - (9 - b)) := by
    rw [getLsbD_num _ (9 - b) (by omega), getElem_vec]
  rwa [show 9 - (9 - b) = b by omega] at hbit

/-- Settles O15: both maps are read bit by bit, and `num`'s sum is the library's word of bits. -/
theorem vectorNumeralMapsInvert : Obligations.VectorNumeralMapsInvert :=
  ⟨fun v => ⟨vec_num v, getLsbD_num v⟩, num_vec⟩

/-- Settles O16: the masks and the seed are constants, so the ten positions are looked up one by one. -/
theorem tapMasksAreThePositions : Obligations.TapMasksAreThePositions := by
  refine ⟨fun p h1 h10 => ?_, fun p h1 h10 => ?_, fun p h1 h10 => ?_⟩
  · interval_cases p <;> decide
  · interval_cases p <;> decide
  · interval_cases p <;> decide

end Sys2Proof.Machine

/-! PROOFS. Frame facts that the state's own laws leave to each engine: the writes that keep every engine, and the tap
mask a shift keeps (R13, R47). -/

namespace Sys2Proof.Machine

variable (s : State) (e e' : EngineId) (c : Cause) (rest : List Input)

@[simp] theorem raiseFault_engine : (raiseFault s c).engine e = s.engine e := by cases e <;> rfl
@[simp] theorem refuseFaulted_engine : (refuseFaulted s).engine e = s.engine e := by cases e <;> rfl
@[simp] theorem engine_with_inputs : ({ s with inputs := rest } : State).engine e = s.engine e := by cases e <;> rfl

/-- A step of an engine writes no tap mask, neither its own nor the other engine's (R13, R47). -/
@[simp] theorem mask_stepEngine : ((stepEngine s e').engine e).m = (s.engine e).m := by
  by_cases h : e = e'
  · subst h
    rw [engine_stepEngine_self]
  · rw [engine_stepEngine_of_ne s e' e h]

end Sys2Proof.Machine

/-! PROOFS. Running lists of commands (R30), and the commands that succeed on an engine (R48, R49). -/

namespace Sys2Proof.Machine

/-- The response word of a success with no data (R41). -/
theorem responseWord_ok : responseWord statusOk 0#8 = 0x00000000#32 := by decide

/-- Commands run one list after another (R30). -/
theorem execAll_append {xs : List Instr} {s t : State} (ys : List Instr) (h : execAll xs s = .next t) :
    execAll (xs ++ ys) s = execAll ys t := by
  induction xs generalizing s with
  | nil =>
    obtain rfl := Host.Outcome.next.inj h
    rfl
  | cons i xs ih =>
    rw [execAll] at h
    split at h
    next u hu => rw [List.cons_append, execAll_cons _ hu, ih h]
    next => cases h
    next => cases h

theorem execAll_singleton {i : Instr} {s t : State} (h : exec i s = .next t) : execAll [i] s = .next t :=
  execAll_cons [] h

/-- The success of `LFSR.LOAD` (R48). -/
theorem exec_lfsrLoad_ten {s : State} (hf : s.fault = 0#4) (e : EngineId) (seed taps : Reg) :
    exec (.lfsrLoad e 10 10 seed taps) s = .next (respond (s.setEngine e ⟨seed, taps, true⟩) statusOk 0#8) := by
  rw [exec, execLfsrLoad, unlessFaulted_of_clear _ hf, if_neg (by decide)]

/-- The success of `LFSR.STEP` (R49). -/
theorem exec_lfsrStep_of_valid {s : State} {e : EngineId} (hf : s.fault = 0#4) (hv : (s.engine e).v = true) :
    exec (.lfsrStep e) s = .next (respond (stepEngine s e) statusOk (bitByte (stepOutput s e))) := by
  rw [exec, execLfsrStep, unlessFaulted_of_clear _ hf, if_pos hv]

end Sys2Proof.Machine

/-! PROOFS. The contents of an unconstructed engine cannot be observed (R14, R19): every operation the meanings are
written with carries alike states to alike states. -/

namespace Sys2Proof.Machine

/-- Both outcomes are next states, alike but for the contents of unconstructed engines. -/
def AnswersAlike (o p : Host.Outcome State Fault Refusal) : Prop :=
  ∃ s t, o = .next s ∧ p = .next t ∧ SameView s t

theorem answersAlike_next {s t : State} (h : SameView s t) : AnswersAlike (.next s) (.next t) := ⟨s, t, rfl, rfl, h⟩

theorem sameEngineView_refl (g : Engine) : SameEngineView g g := ⟨rfl, fun _ => rfl⟩

section
variable {s t : State} (h : SameView s t)
include h

theorem sameEngineView_engine (e : EngineId) : SameEngineView (s.engine e) (t.engine e) := by
  obtain ⟨h1, h2, -⟩ := h
  cases e with
  | lfsr1 => exact h1
  | lfsr2 => exact h2

/-- Alike states agree wholly on an engine that is constructed. -/
theorem engine_eq_of_sameView {e : EngineId} (hv : (s.engine e).v = true) : s.engine e = t.engine e :=
  (sameEngineView_engine h e).2 hv

theorem valid_eq_of_sameView (e : EngineId) : (s.engine e).v = (t.engine e).v := (sameEngineView_engine h e).1

theorem fault_eq_of_sameView : s.fault = t.fault := by
  obtain ⟨-, -, hfault, -⟩ := h
  exact hfault

theorem inputs_eq_of_sameView : s.inputs = t.inputs := by
  obtain ⟨-, -, -, -, hinputs, -⟩ := h
  exact hinputs

theorem romRead_eq_of_sameView (sv : Nat) : romRead s sv = romRead t sv := by
  obtain ⟨-, -, -, htable, -⟩ := h
  rw [romRead, htable, romRead]

theorem sameView_respond (st : BitVec 4) (d : BitVec 8) : SameView (respond s st d) (respond t st d) := by
  obtain ⟨h1, h2, hfault, htable, hinputs, hresponses⟩ := h
  exact ⟨h1, h2, hfault, htable, hinputs, congrArg (· ++ _) hresponses⟩

theorem sameView_raiseFault (c : Cause) : SameView (raiseFault s c) (raiseFault t c) := by
  obtain ⟨h1, h2, -, htable, hinputs, hresponses⟩ := h
  exact sameView_respond (s := { s with fault := causeCode c }) (t := { t with fault := causeCode c })
    ⟨h1, h2, rfl, htable, hinputs, hresponses⟩ _ _

theorem sameView_refuseFaulted : SameView (refuseFaulted s) (refuseFaulted t) := by
  rw [refuseFaulted, fault_eq_of_sameView h]
  exact sameView_respond h _ _

theorem sameView_resetEvent : SameView (resetEvent s) (resetEvent t) := by
  obtain ⟨-, -, -, htable, hinputs, hresponses⟩ := h
  exact ⟨sameEngineView_refl _, sameEngineView_refl _, rfl, htable, hinputs, hresponses⟩

theorem sameView_with_inputs (rest : List Input) :
    SameView { s with inputs := rest } { t with inputs := rest } := by
  obtain ⟨h1, h2, hfault, htable, -, hresponses⟩ := h
  exact ⟨h1, h2, hfault, htable, rfl, hresponses⟩

theorem sameView_setEngine (e : EngineId) (g : Engine) : SameView (s.setEngine e g) (t.setEngine e g) := by
  obtain ⟨h1, h2, hrest⟩ := h
  cases e with
  | lfsr1 => exact ⟨sameEngineView_refl g, h2, hrest⟩
  | lfsr2 => exact ⟨h1, sameEngineView_refl g, hrest⟩

theorem sameView_stepEngine {e : EngineId} (hv : (s.engine e).v = true) :
    SameView (stepEngine s e) (stepEngine t e) := by
  rw [stepEngine, engine_eq_of_sameView h hv]
  exact sameView_setEngine h e _

theorem stepOutput_eq_of_sameView {e : EngineId} (hv : (s.engine e).v = true) : stepOutput s e = stepOutput t e := by
  rw [stepOutput, engine_eq_of_sameView h hv, stepOutput]

/-- The sticky check is decided by `FAULT`, on which alike states agree (R66). -/
theorem answersAlike_unlessFaulted {go go' : Host.Outcome State Fault Refusal} (hgo : AnswersAlike go go') :
    AnswersAlike (unlessFaulted s go) (unlessFaulted t go') := by
  have hfault := fault_eq_of_sameView h
  by_cases hs : s.fault = 0#4
  · rwa [unlessFaulted_of_clear go hs, unlessFaulted_of_clear go' (hfault ▸ hs)]
  · rw [unlessFaulted_of_faulted go hs, unlessFaulted_of_faulted go' (hfault ▸ hs)]
    exact answersAlike_next (sameView_refuseFaulted h)

theorem answersAlike_execLfsrLoad (e : EngineId) (slen tlen : Nat) (seed taps : Reg) :
    AnswersAlike (execLfsrLoad e slen tlen seed taps s) (execLfsrLoad e slen tlen seed taps t) := by
  apply answersAlike_unlessFaulted h
  split_ifs
  · exact answersAlike_next (sameView_raiseFault h _)
  · exact answersAlike_next (sameView_respond (sameView_setEngine h e _) _ _)

/-- `LFSR.STEP` looks at an engine's contents only when its valid flag is set (R49). -/
theorem answersAlike_execLfsrStep (e : EngineId) : AnswersAlike (execLfsrStep e s) (execLfsrStep e t) := by
  apply answersAlike_unlessFaulted h
  rw [← valid_eq_of_sameView h e]
  split_ifs with hv
  · rw [stepOutput_eq_of_sameView h hv]
    exact answersAlike_next (sameView_respond (sameView_stepEngine h hv) _ _)
  · exact answersAlike_next (sameView_raiseFault h _)

theorem answersAlike_execCaInit (sv : Nat) : AnswersAlike (execCaInit sv s) (execCaInit sv t) := by
  apply answersAlike_unlessFaulted h
  split_ifs with hsv
  · exact answersAlike_next (sameView_raiseFault h _)
  · simp only [Config.svFirst, Config.svLast] at hsv
    rw [← romRead_eq_of_sameView h, romRead_of_mem s sv (by omega) (by omega)]
    exact answersAlike_next
      (sameView_respond (sameView_setEngine (sameView_setEngine h .lfsr1 _) .lfsr2 _) _ _)

/-- `CA.NEXT` looks at the engines' contents only when both valid flags are set (R58). -/
theorem answersAlike_execCaNext : AnswersAlike (execCaNext s) (execCaNext t) := by
  have hboth : bothConfigured s = bothConfigured t :=
    congrArg₂ and (valid_eq_of_sameView h .lfsr1) (valid_eq_of_sameView h .lfsr2)
  apply answersAlike_unlessFaulted h
  rw [← hboth]
  split_ifs with hv
  · obtain ⟨hv1, hv2⟩ : (s.engine .lfsr1).v = true ∧ (s.engine .lfsr2).v = true := by
      simpa [bothConfigured] using hv
    rw [stepOutput_eq_of_sameView h hv1, stepOutput_eq_of_sameView h hv2]
    exact answersAlike_next
      (sameView_respond (sameView_stepEngine (e := .lfsr2) (sameView_stepEngine h hv1) hv2) _ _)
  · exact answersAlike_next (sameView_raiseFault h _)

theorem answersAlike_exec (i : Instr) : AnswersAlike (exec i s) (exec i t) := by
  cases i with
  | lfsrLoad e slen tlen seed taps => exact answersAlike_execLfsrLoad h e slen tlen seed taps
  | lfsrStep e => exact answersAlike_execLfsrStep h e
  | caInit sv => exact answersAlike_execCaInit h sv
  | caNext => exact answersAlike_execCaNext h

theorem answersAlike_presentCommand (w : Word) : AnswersAlike (presentCommand w s) (presentCommand w t) := by
  apply answersAlike_unlessFaulted h
  cases decode w with
  | error why => exact answersAlike_next (sameView_raiseFault h _)
  | ok i => exact answersAlike_exec h i

theorem answersAlike_present (x : Input) : AnswersAlike (present x s) (present x t) := by
  cases x with
  | reset => exact answersAlike_next (sameView_resetEvent h)
  | command w => exact answersAlike_presentCommand h w

theorem answersAlike_step : AnswersAlike (step s) (step t) := by
  rw [step, takeInput, step, takeInput, ← inputs_eq_of_sameView h]
  cases s.inputs with
  | nil => exact answersAlike_next h
  | cons x rest => exact answersAlike_present (sameView_with_inputs h rest) x

end

/-- Settles O31: each meaning reads an engine's contents only behind its valid flag, so alike states are answered alike. -/
theorem unconstructedContentsUnobservable : Obligations.UnconstructedContentsUnobservable :=
  fun _ _ h => answersAlike_step h

end Sys2Proof.Machine

/-! PROOFS. The block invariant (R15, R19, R41, R63): it holds at reset, every operation keeps it, so every step does. -/

namespace Sys2Proof.Machine

theorem blankUnlessValid_blank : BlankUnlessValid Engine.blank := fun _ => ⟨rfl, rfl⟩

/-- A constructed engine may hold anything. -/
theorem blankUnlessValid_of_valid {g : Engine} (hv : g.v = true) : BlankUnlessValid g :=
  fun h => absurd (hv.symm.trans h) (by decide)

/-! The response words are those of R41's table. -/

theorem bit_mem_legalResponses (b : Bool) : responseWord statusOk (bitByte b) ∈ legalResponses := by
  cases b <;> decide

theorem chip_mem_legalResponses (c : Chip) : responseWord statusOk (chipByte c) ∈ legalResponses := by
  cases c <;> decide

theorem ok_mem_legalResponses : responseWord statusOk 0#8 ∈ legalResponses := by
  rw [responseWord_ok]
  decide

theorem cause_mem_legalResponses (c : Cause) : responseWord (causeCode c) 0#8 ∈ legalResponses := by
  cases c <;> decide

/-- A refusal names a recorded cause: its word is legal because `FAULT` holds 1 to 4 (R15, R66). -/
theorem refusal_mem_legalResponses (f : BitVec 4) (hne : f ≠ 0#4) (hle : f.toNat ≤ 4) :
    responseWord statusFaulted (f.setWidth 8) ∈ legalResponses := by
  revert f
  decide

section
variable {s : State} (h : Inv s)
include h

theorem inv_respond {st : BitVec 4} {d : BitVec 8} (hword : responseWord st d ∈ legalResponses) :
    Inv (respond s st d) := by
  obtain ⟨hfault, h1, h2, hresponses⟩ := h
  refine ⟨hfault, h1, h2, fun x hx => ?_⟩
  rcases List.mem_append.mp hx with hold | hnew
  · exact hresponses x hold
  · rwa [List.mem_singleton.mp hnew]

theorem inv_setEngine (e : EngineId) {g : Engine} (hg : BlankUnlessValid g) : Inv (s.setEngine e g) := by
  obtain ⟨hfault, h1, h2, hresponses⟩ := h
  cases e with
  | lfsr1 => exact ⟨hfault, hg, h2, hresponses⟩
  | lfsr2 => exact ⟨hfault, h1, hg, hresponses⟩

theorem inv_stepEngine {e : EngineId} (hv : (s.engine e).v = true) : Inv (stepEngine s e) :=
  inv_setEngine h e (blankUnlessValid_of_valid hv)

theorem inv_raiseFault (c : Cause) : Inv (raiseFault s c) := by
  obtain ⟨-, h1, h2, hresponses⟩ := h
  have hcode : (causeCode c).toNat ≤ 4 := by cases c <;> decide
  exact inv_respond (s := { s with fault := causeCode c }) ⟨hcode, h1, h2, hresponses⟩ (cause_mem_legalResponses c)

theorem inv_refuseFaulted (hne : s.fault ≠ 0#4) : Inv (refuseFaulted s) := by
  have ⟨hle, _⟩ := h
  exact inv_respond h (refusal_mem_legalResponses s.fault hne hle)

theorem inv_resetEvent : Inv (resetEvent s) := by
  obtain ⟨-, -, -, hresponses⟩ := h
  exact ⟨Nat.zero_le 4, blankUnlessValid_blank, blankUnlessValid_blank, hresponses⟩

/-- Every command keeps the invariant: it raises a cause, constructs engines, or shifts constructed ones. -/
theorem exec_keeps_inv {i : Instr} {t : State} (ht : exec i s = .next t) : Inv t := by
  by_cases hf : s.fault = 0#4
  · rcases exec_cases i s hf with ⟨c, hx⟩ | ⟨e, seed, taps, -, hx⟩ | ⟨e, -, hv, hx⟩ |
        ⟨sv, word, -, -, -, -, hx⟩ | ⟨-, hv1, hv2, hx⟩ <;>
      obtain rfl := Host.Outcome.next.inj (hx.symm.trans ht)
    · exact inv_raiseFault h c
    · exact inv_respond (inv_setEngine h e (blankUnlessValid_of_valid rfl)) ok_mem_legalResponses
    · exact inv_respond (inv_stepEngine h hv) (bit_mem_legalResponses _)
    · exact inv_respond (inv_setEngine (inv_setEngine h .lfsr1 (blankUnlessValid_of_valid rfl)) .lfsr2
        (blankUnlessValid_of_valid rfl)) ok_mem_legalResponses
    · exact inv_respond (inv_stepEngine (inv_stepEngine h (e := .lfsr1) hv1) (e := .lfsr2) hv2)
        (chip_mem_legalResponses _)
  · obtain rfl := Host.Outcome.next.inj ((exec_of_faulted i s hf).symm.trans ht)
    exact inv_refuseFaulted h hf

theorem step_keeps_inv {t : State} (ht : step s = .next t) : Inv t := by
  have hrest (rest : List Input) : Inv { s with inputs := rest } := h
  rcases step_cases s with ⟨-, hx⟩ | ⟨rest, -, hx⟩ | ⟨w, rest, -, ⟨hf, hx⟩ | ⟨-, why, -, hx⟩ | ⟨-, i, -, hx⟩⟩ <;>
    rw [hx] at ht
  · exact Host.Outcome.next.inj ht ▸ h
  · exact Host.Outcome.next.inj ht ▸ inv_resetEvent (hrest rest)
  · exact Host.Outcome.next.inj ht ▸ inv_refuseFaulted (hrest rest) hf
  · exact Host.Outcome.next.inj ht ▸ inv_raiseFault (hrest rest) _
  · exact exec_keeps_inv (hrest rest) ht

end

/-- Settles O32: every operation a step is made of keeps the invariant. -/
theorem stepKeepsBlockInvariant : Obligations.StepKeepsBlockInvariant :=
  fun _ _ h ht => step_keeps_inv h ht

/-- Settles O1: the seven registers of `State.reset` are written out in the model. -/
theorem resetRegisterValues : Obligations.ResetRegisterValues := ⟨rfl, rfl, rfl, rfl, rfl, rfl, rfl⟩

/-- Settles O33: both engines are blank, `FAULT` is 0 and nothing has been answered. -/
theorem resetMeetsBlockInvariant : Obligations.ResetMeetsBlockInvariant :=
  ⟨by decide, blankUnlessValid_blank, blankUnlessValid_blank, fun _ hx => absurd hx List.not_mem_nil⟩

end Sys2Proof.Machine

/-! PROOFS. Tap masks are written only by a construction (R13). -/

namespace Sys2Proof.Machine

/-- A command that changes the tap mask of `e` constructs `e` (R13, R48, R57). -/
theorem constructs_of_mask_ne {i : Instr} {s t : State} {e : EngineId} (ht : exec i s = .next t)
    (hne : (t.engine e).m ≠ (s.engine e).m) :
    (∃ seed taps, i = .lfsrLoad e 10 10 seed taps) ∨ ∃ sv, i = .caInit sv := by
  by_cases hf : s.fault = 0#4
  · rcases exec_cases i s hf with ⟨c, hx⟩ | ⟨e', seed, taps, hi, hx⟩ | ⟨e', -, -, hx⟩ |
        ⟨sv, word, hi, -, -, -, hx⟩ | ⟨-, -, -, hx⟩ <;>
      obtain rfl := Host.Outcome.next.inj (hx.symm.trans ht)
    · exact absurd (by rw [raiseFault_engine]) hne
    · have he : e = e' := by
        by_contra he
        exact hne (by rw [respond_engine, engine_setEngine_of_ne s e' e _ he])
      exact .inl ⟨seed, taps, he ▸ hi⟩
    · exact absurd (by rw [respond_engine, mask_stepEngine]) hne
    · exact .inr ⟨sv, hi⟩
    · exact absurd (by rw [respond_engine, mask_stepEngine, mask_stepEngine]) hne
  · obtain rfl := Host.Outcome.next.inj ((exec_of_faulted i s hf).symm.trans ht)
    exact absurd (by rw [refuseFaulted_engine]) hne

/-- Settles O29: a refused or illegal word writes no engine, and a decoded command that changes a mask constructs. -/
theorem maskWrittenOnlyByConstruction : Obligations.MaskWrittenOnlyByConstruction := by
  intro s t w rest e hin ht hne
  rcases step_cases s with ⟨hnil, -⟩ | ⟨_, hreset, -⟩ |
    ⟨w', rest', hin', ⟨-, hx⟩ | ⟨-, why, -, hx⟩ | ⟨-, i, hi, hx⟩⟩
  · simp [hin] at hnil
  · simp [hin] at hreset
  · obtain rfl := Host.Outcome.next.inj (hx.symm.trans ht)
    exact absurd (by rw [refuseFaulted_engine, engine_with_inputs]) hne
  · obtain rfl := Host.Outcome.next.inj (hx.symm.trans ht)
    exact absurd (by rw [raiseFault_engine, engine_with_inputs]) hne
  · obtain ⟨rfl, -⟩ : w = w' ∧ rest = rest' := by simpa [hin] using hin'
    rw [hi]
    rcases constructs_of_mask_ne (hx.symm.trans ht) (by rwa [engine_with_inputs]) with
      ⟨seed, taps, rfl⟩ | ⟨sv, rfl⟩
    · exact .inl ⟨seed, taps, rfl⟩
    · exact .inr ⟨sv, rfl⟩

end Sys2Proof.Machine

/-! PROOFS. A system of blocks (R70): blocks share the ROM and nothing that changes. -/

namespace Sys2Proof.Machine

/-- Settles O46: a system as built repeats one block, and a block is read with the system's own ROM. -/
theorem systemBlocksShareTheRom : Obligations.SystemBlocksShareTheRom := by
  refine ⟨fun ninst table k => ⟨fun hk => ?_, fun hk => ?_⟩, fun sys k s => seedTable_of_blockAt⟩
  · rw [System.blockAt, System.reset, List.getElem?_replicate_of_lt hk]
    rfl
  · have hnone : (List.replicate ninst State.reset.block)[k]? = none := by simpa using hk
    rw [System.blockAt, System.reset, hnone, Option.map_none]

/-- Settles O47: a step of a number that names no block changes nothing; any other step writes one block. -/
theorem stepChangesOnlyItsOwnBlock : Obligations.StepChangesOnlyItsOwnBlock := by
  intro j sys
  rcases stepBlock_cases j sys with ⟨hnone, hx⟩ | ⟨s, t, hs, ht, htable, hx⟩
  · exact ⟨sys, hx, fun s hs => by simp [hnone] at hs, fun _ _ => rfl, rfl, rfl⟩
  · refine ⟨sys.setBlock j t, hx, fun s' hs' => ?_, fun k hk => blockAt_setBlock_of_ne sys j k t hk,
      setBlock_seedTable sys j t, setBlock_length sys j t⟩
    obtain rfl : s = s' := Option.some.inj (hs.symm.trans hs')
    exact ⟨t, ht, blockAt_setBlock_self hs htable⟩

/-- Settles O34, by induction on the schedule: each step is block `k`'s own next step or leaves block `k` alone. -/
theorem blocksRunAsIfAlone : Obligations.BlocksRunAsIfAlone := by
  intro schedule
  induction schedule with
  | nil => exact fun sys k s hs => ⟨sys, s, rfl, rfl, hs⟩
  | cons j rest ih =>
    intro sys k s hs
    obtain ⟨sys', hstep, hown, hother, -, -⟩ := stepChangesOnlyItsOwnBlock j sys
    rw [runSchedule_of_stepBlock rest hstep]
    by_cases hjk : j = k
    · subst hjk
      obtain ⟨t, ht, hs'⟩ := hown s hs
      rw [List.count_cons_self, run_of_step _ ht]
      exact ih sys' j t hs'
    · rw [List.count_cons_of_ne hjk]
      exact ih sys' k s ((hother k (Ne.symm hjk)).trans hs)

end Sys2Proof.Machine

/-! PROOFS. Pulls of one engine (R50), and two engines that do not interfere (R20, R53). -/

namespace Sys2Proof.Machine

/-- The state after `n` pulls of engine `e` (R50): `r_n` in `R[e]`, and `out_0` to `out_(n-1)` answered. -/
def pulled (s : State) (e : EngineId) (n : Nat) : State :=
  { s.setEngine e { s.engine e with r := stateSeq (s.engine e).r (s.engine e).m n } with
    responses := s.responses ++ (List.range n).map fun k => bitWord (outSeq (s.engine e).r (s.engine e).m k) }

@[simp] theorem pulled_fault (s : State) (e : EngineId) (n : Nat) : (pulled s e n).fault = s.fault := by
  cases e <;> rfl

@[simp] theorem engine_pulled_self (s : State) (e : EngineId) (n : Nat) :
    (pulled s e n).engine e = { s.engine e with r := stateSeq (s.engine e).r (s.engine e).m n } := by
  cases e <;> rfl

theorem pulled_zero (s : State) (e : EngineId) : pulled s e 0 = s := by
  cases e <;> simp [pulled, State.setEngine, stateSeq]

/-- One pull more: the shift of what the pulls before it left, answered with its old rear bit (R47, R50). -/
theorem pulled_succ (s : State) (e : EngineId) (n : Nat) :
    pulled s e (n + 1) =
      respond (stepEngine (pulled s e n) e) statusOk (bitByte (stepOutput (pulled s e n) e)) := by
  have hword (b : Bool) : responseWord statusOk (bitByte b) = bitWord b := responseWord_bit b
  cases e <;>
    simp [pulled, respond, stepEngine, stepOutput, State.setEngine, State.engine, hword, stateSeq, outSeq,
      List.range_succ]

/-- `n` pulls of a constructed engine, in any state with no fault recorded (R50). -/
theorem execAll_lfsrPull {s : State} {e : EngineId} (hf : s.fault = 0#4) (hv : (s.engine e).v = true) (n : Nat) :
    execAll (expand (.lfsrPull e n)) s = .next (pulled s e n) := by
  induction n with
  | zero => rw [pulled_zero]; rfl
  | succ n ih =>
    have hlast : exec (.lfsrStep e) (pulled s e n) = .next (pulled s e (n + 1)) := by
      rw [pulled_succ]
      exact exec_lfsrStep_of_valid (by simpa using hf) (by simpa using hv)
    calc execAll (expand (.lfsrPull e (n + 1))) s
        = execAll (expand (.lfsrPull e n) ++ [.lfsrStep e]) s := by simp only [expand, List.replicate_succ']
      _ = .next (pulled s e (n + 1)) := by rw [execAll_append _ ih, execAll_singleton hlast]

/-- Both engines loaded with one seed and one mask, and both loads answered (R48, R53). -/
def twinLoaded (s : State) (seed m : Reg) : State :=
  { s with
    engine1 := { r := seed, m := m, v := true }
    engine2 := { r := seed, m := m, v := true }
    responses := s.responses ++ [0x00000000#32, 0x00000000#32] }

theorem execAll_twinLoads {s : State} (hf : s.fault = 0#4) (seed m : Reg) :
    execAll [.lfsrLoad .lfsr1 10 10 seed m, .lfsrLoad .lfsr2 10 10 seed m] s = .next (twinLoaded s seed m) := by
  rw [execAll_cons _ (exec_lfsrLoad_ten hf .lfsr1 seed m),
    execAll_singleton (exec_lfsrLoad_ten (by simpa using hf) .lfsr2 seed m)]
  simp [respond, responseWord_ok, State.setEngine, twinLoaded]

/-- Settles O40: two loads, then the pulls of each engine, which read and write that engine alone. -/
theorem enginesDoNotInterfere : Obligations.EnginesDoNotInterfere := by
  intro s seed m n k hf
  have hpull1 := execAll_lfsrPull (s := twinLoaded s seed m) (e := .lfsr1) hf rfl n
  have hpull2 := execAll_lfsrPull (s := pulled (twinLoaded s seed m) .lfsr1 n) (e := .lfsr2) hf rfl k
  rw [List.append_assoc, execAll_append _ (execAll_twinLoads hf seed m), execAll_append _ hpull1, hpull2]
  rfl

end Sys2Proof.Machine

/-! PROOFS. The seed ROM read at every address (R22, R24), and how an input is answered (R21, R30, R41). -/

namespace Sys2Proof.Machine

/-- Settles O12: the read answers inside the range with the word in the table, and nowhere outside it. -/
theorem romReadsExactlyThirtyTwoWords : Obligations.RomReadsExactlyThirtyTwoWords :=
  fun s sv => ⟨fun h1 h32 => ⟨_, Vector.getElem?_eq_getElem (by omega), romRead_of_mem s sv h1 h32⟩,
    fun h => romRead_of_not_mem s sv (by omega)⟩

/-- Settles O3: on a clear block the word's meaning follows the sticky check; on a faulted one both refuse alike. -/
theorem stepRunsDecodedCommand : Obligations.StepRunsDecodedCommand := by
  intro s w rest i hin hi
  rw [step_of_command hin, presentCommand, hi]
  rcases unlessFaulted_cases { s with inputs := rest } (exec i { s with inputs := rest }) with ⟨hf, hx⟩ | ⟨-, hx⟩
  · exact hx.trans (exec_of_faulted i _ hf).symm
  · exact hx

/-- `t` has one response more than `s`, the same inputs pending and the same ROM (R21, R41). -/
def AnsweredOnce (s t : State) : Prop :=
  t.inputs = s.inputs ∧ t.seedTable = s.seedTable ∧ ∃ r, t.responses = s.responses ++ [r]

/-- A response after writes to registers alone. -/
theorem answeredOnce_respond {s u : State} (hinputs : u.inputs = s.inputs) (htable : u.seedTable = s.seedTable)
    (hresponses : u.responses = s.responses) (st : BitVec 4) (d : BitVec 8) : AnsweredOnce s (respond u st d) :=
  ⟨hinputs, htable, _, congrArg (· ++ _) hresponses⟩

theorem answeredOnce_raiseFault (s : State) (c : Cause) : AnsweredOnce s (raiseFault s c) :=
  answeredOnce_respond rfl rfl rfl _ _

theorem answeredOnce_refuseFaulted (s : State) : AnsweredOnce s (refuseFaulted s) :=
  answeredOnce_respond rfl rfl rfl _ _

/-- Every command ends in a next state that has answered it once: what it writes before it responds is registers alone. -/
theorem exec_answers_once (i : Instr) (s : State) : ∃ t, exec i s = .next t ∧ AnsweredOnce s t := by
  by_cases hf : s.fault = 0#4
  · rcases exec_cases i s hf with ⟨c, hx⟩ | ⟨e, seed, taps, -, hx⟩ | ⟨e, -, -, hx⟩ | ⟨sv, word, -, -, -, -, hx⟩ |
      ⟨-, -, -, hx⟩
    · exact ⟨_, hx, answeredOnce_raiseFault s c⟩
    · exact ⟨_, hx, answeredOnce_respond (by simp) (by simp) (by simp) _ _⟩
    · exact ⟨_, hx, answeredOnce_respond (by simp) (by simp) (by simp) _ _⟩
    · exact ⟨_, hx, answeredOnce_respond (by simp) (by simp) (by simp) _ _⟩
    · exact ⟨_, hx, answeredOnce_respond (by simp) (by simp) (by simp) _ _⟩
  · exact ⟨_, exec_of_faulted i s hf, answeredOnce_refuseFaulted s⟩

/-- Every command word, refused, illegal or decoded, is answered once (R41, R66, R67). -/
theorem presentCommand_answers_once (w : Word) (s : State) :
    ∃ t, presentCommand w s = .next t ∧ AnsweredOnce s t := by
  rw [presentCommand]
  by_cases hf : s.fault = 0#4
  · rw [unlessFaulted_of_clear _ hf]
    cases decode w with
    | error why => exact ⟨_, rfl, answeredOnce_raiseFault s _⟩
    | ok i => exact exec_answers_once i s
  · exact ⟨_, unlessFaulted_of_faulted _ hf, answeredOnce_refuseFaulted s⟩

/-- Settles O28: an idle block and a `RESET` give no response (R73, R74), a command word exactly one. -/
theorem everyInputIsAnsweredOnce : Obligations.EveryInputIsAnsweredOnce := by
  intro s
  rcases takeInput_cases s with ⟨hin, hx⟩ | ⟨x, rest, hin, hx⟩
  · exact ⟨s, hx, by rw [hin, List.tail_nil], rfl, by simp [hin], fun _ => rfl⟩
  · cases x with
    | reset => exact ⟨_, hx, by simp [hin], rfl, by simp [hin], fun _ => rfl⟩
    | command w =>
      obtain ⟨t, ht, hinputs, htable, hresponses⟩ := presentCommand_answers_once w { s with inputs := rest }
      exact ⟨t, hx.trans ht, by rw [hinputs, hin, List.tail_cons], htable, fun _ => hresponses,
        fun hno => absurd ⟨w, rest, hin⟩ hno⟩

end Sys2Proof.Machine

/-! PROOFS. The decoder and the encoder invert each other (R35 to R38, R40): a word is the fields it is cut into, each at
its place. -/

namespace Sys2Proof

/-! Decoding, once the operation field is known (R34). -/

section
variable {w : Word}

theorem decode_of_opField_one (h : opField w = 1) : decode w = .ok (decodeLoad w) := by simp [decode, h]
theorem decode_of_opField_two (h : opField w = 2) : decode w = decodeStep w := by simp [decode, h]
theorem decode_of_opField_three (h : opField w = 3) : decode w = decodeInit w := by simp [decode, h]
theorem decode_of_opField_four (h : opField w = 4) : decode w = decodeNext w := by simp [decode, h]

end

/-- A number that fits its field is read back from it (R39). -/
theorem toNat_ofNat_of_le_field {n k : Nat} (h : k ≤ 2 ^ n - 1) : (BitVec.ofNat n k).toNat = k :=
  (BitVec.toNat_ofNat k n).trans (Nat.mod_eq_of_lt (by have := Nat.two_pow_pos n; omega))

/-- Settles O10: the encoded word has the format's operation field, and each field is read back where it was put. -/
theorem decodeInvertsEncode : Obligations.DecodeInvertsEncode := by
  intro i hwf
  cases i with
  | lfsrLoad e slen tlen seed taps =>
    obtain ⟨hslen, htlen⟩ : slen ≤ 15 ∧ tlen ≤ 15 := by simpa [Instr.wellFormed] using hwf
    rw [encode, decode_of_opField_one (opField_encodeLoad ..), decodeLoad, engineField_encodeLoad, slen_encodeLoad,
      tlen_encodeLoad, seed_encodeLoad, taps_encodeLoad, toNat_ofNat_of_le_field hslen, toNat_ofNat_of_le_field htlen]
  | lfsrStep e => cases e <;> decide
  | caInit sv =>
    have hsv : sv ≤ 255 := by simpa [Instr.wellFormed] using hwf
    rw [encode, decode_of_opField_three (opField_encodeInit sv), decodeInit, if_pos (zero_encodeInit sv),
      sv_encodeInit, toNat_ofNat_of_le_field hsv]
  | caNext => decide

/-! A field cut out of a word and put back where it stood. -/

theorem getLsbD_placed_extractLsb' (w : Word) (lo n b : Nat) :
    (placed (w.extractLsb' lo n) lo).getLsbD b = (decide (lo ≤ b ∧ b < lo + n) && w.getLsbD b) := by
  by_cases hb : b < 32
  · by_cases hlo : lo ≤ b
    · have hn : b - lo < n ↔ b < lo + n := by omega
      simp [placed, hb, hlo, hn, Nat.add_sub_cancel' hlo]
    · simp [placed, hb, hlo]
  · simp [placed, hb, BitVec.getLsbD_of_ge w b (by omega)]

theorem placed_extractLsb'_all (w : Word) : placed (w.extractLsb' 0 32) 0 = w := by
  simp [placed]

/-- Two neighbouring fields put back together are one field. -/
theorem placed_or_placed (w : Word) (lo n m : Nat) :
    placed (w.extractLsb' (lo + n) m) (lo + n) ||| placed (w.extractLsb' lo n) lo =
      placed (w.extractLsb' lo (n + m)) lo := by
  apply BitVec.eq_of_getLsbD_eq
  intro b _
  have hsplit : (lo + n ≤ b ∧ b < lo + n + m ∨ lo ≤ b ∧ b < lo + n) ↔ lo ≤ b ∧ b < lo + (n + m) := by omega
  simp only [BitVec.getLsbD_or, getLsbD_placed_extractLsb', ← Bool.and_or_distrib_right, ← Bool.decide_or, hsplit]

/-- A field with zeros below it is a longer field. -/
theorem placed_above_zeros {w : Word} {lo n : Nat} (m : Nat) (hz : w.extractLsb' lo n = 0) :
    placed (w.extractLsb' (lo + n) m) (lo + n) = placed (w.extractLsb' lo (n + m)) lo := by
  have hplaced : placed (w.extractLsb' lo n) lo = 0#32 := by simp [placed, hz]
  rw [← placed_or_placed, hplaced, BitVec.or_zero]

/-- The one-bit field of the engine (R35, R36). -/
theorem ofBool_bitOfEngine_engineField (w : Word) :
    BitVec.ofBool (bitOfEngine (engineField w)) = w.extractLsb' 28 1 := by
  rw [engineField, bitOfEngine_engineOfBit]
  apply BitVec.eq_of_getLsbD_eq
  intro b hb
  obtain rfl : b = 0 := by omega
  simp

/-! A word of format U, S or N decodes only when its must-be-zero bits are 0 (R36 to R38). -/

theorem and_eq_of_ite_eq_ok {c : Prop} [Decidable c] {i j : Instr} {why : Illegal}
    (h : (if c then Except.ok j else .error why) = .ok i) : c ∧ j = i := by
  split at h
  case isTrue hc => exact ⟨hc, Except.ok.inj h⟩
  case isFalse => cases h

section
variable {w : Word} {i : Instr}

theorem of_decodeStep (h : decodeStep w = .ok i) : w.extractLsb' 0 28 = 0 ∧ .lfsrStep (engineField w) = i :=
  and_eq_of_ite_eq_ok h

theorem of_decodeInit (h : decodeInit w = .ok i) :
    w.extractLsb' 8 21 = 0 ∧ .caInit (w.extractLsb' 0 8).toNat = i :=
  and_eq_of_ite_eq_ok h

theorem of_decodeNext (h : decodeNext w = .ok i) : w.extractLsb' 0 29 = 0 ∧ .caNext = i :=
  and_eq_of_ite_eq_ok h

/-! Encoding what the decoder read from a word gives the word, format by format (R35 to R38). -/

theorem encode_decodeLoad (hop : opField w = 1) : encode (decodeLoad w) = w := by
  have hop' : 1#3 = w.extractLsb' 29 3 := hop.symm
  rw [decodeLoad, encode, encodeLoad, ofBool_bitOfEngine_engineField, hop']
  simp only [BitVec.ofNat_toNat, BitVec.setWidth_eq]
  rw [placed_or_placed w 28 1 3, placed_or_placed w 24 4 4, placed_or_placed w 20 4 8, placed_or_placed w 10 10 12,
    placed_or_placed w 0 10 22, placed_extractLsb'_all]

theorem encode_of_decodeStep (hop : opField w = 2) (h : decodeStep w = .ok i) : encode i = w := by
  have hop' : 2#3 = w.extractLsb' 29 3 := hop.symm
  obtain ⟨hzero, rfl⟩ := of_decodeStep h
  rw [encode, encodeStep, ofBool_bitOfEngine_engineField, hop', placed_or_placed w 28 1 3,
    placed_above_zeros (lo := 0) (n := 28) 4 hzero, placed_extractLsb'_all]

theorem encode_of_decodeInit (hop : opField w = 3) (h : decodeInit w = .ok i) : encode i = w := by
  have hop' : 3#3 = w.extractLsb' 29 3 := hop.symm
  obtain ⟨hzero, rfl⟩ := of_decodeInit h
  rw [encode, encodeInit, BitVec.ofNat_toNat, BitVec.setWidth_eq, hop',
    placed_above_zeros (lo := 8) (n := 21) 3 hzero, placed_or_placed w 0 8 24, placed_extractLsb'_all]

theorem encode_of_decodeNext (hop : opField w = 4) (h : decodeNext w = .ok i) : encode i = w := by
  have hop' : 4#3 = w.extractLsb' 29 3 := hop.symm
  obtain ⟨hzero, rfl⟩ := of_decodeNext h
  rw [encode, encodeNext, hop', placed_above_zeros (lo := 0) (n := 29) 3 hzero, placed_extractLsb'_all]

theorem encode_of_decode (h : decode w = .ok i) : encode i = w := by
  rcases decode_cases w with ⟨hop, hd⟩ | ⟨hop, hd⟩ | ⟨hop, hd⟩ | ⟨hop, hd⟩ | ⟨-, hd⟩ <;> rw [hd] at h
  · exact Except.ok.inj h ▸ encode_decodeLoad hop
  · exact encode_of_decodeStep hop h
  · exact encode_of_decodeInit hop h
  · exact encode_of_decodeNext hop h
  · cases h

/-- What is read from a field fits it (R39). -/
theorem toNat_le_field {n : Nat} (x : BitVec n) : x.toNat ≤ 2 ^ n - 1 := Nat.le_sub_one_of_lt x.isLt

theorem wellFormed_decodeLoad (w : Word) : (decodeLoad w).wellFormed = true := by
  rw [decodeLoad, Instr.wellFormed, Bool.and_eq_true, decide_eq_true_iff, decide_eq_true_iff]
  exact ⟨toNat_le_field _, toNat_le_field _⟩

theorem wellFormed_of_decode (h : decode w = .ok i) : i.wellFormed = true := by
  rcases decode_cases w with ⟨-, hd⟩ | ⟨-, hd⟩ | ⟨-, hd⟩ | ⟨-, hd⟩ | ⟨-, hd⟩ <;> rw [hd] at h
  · exact Except.ok.inj h ▸ wellFormed_decodeLoad w
  · obtain ⟨-, rfl⟩ := of_decodeStep h
    rfl
  · obtain ⟨-, rfl⟩ := of_decodeInit h
    exact decide_eq_true (toNat_le_field _)
  · obtain ⟨-, rfl⟩ := of_decodeNext h
    rfl
  · cases h

end

/-- Settles O11: the fields the decoder reads are the whole word, and its must-be-zero bits put nothing there. -/
theorem encodeInvertsDecode : Obligations.EncodeInvertsDecode :=
  fun _ _ h => ⟨wellFormed_of_decode h, encode_of_decode h⟩

/-! The rows of the mask table (R40). -/

/-- A field that a row's mask keeps holds what the row's match value holds there. -/
theorem extractLsb'_of_masked {w mask value : Word} (lo n : Nat) (h : w &&& mask = value)
    (hmask : mask.extractLsb' lo n = BitVec.allOnes n) : w.extractLsb' lo n = value.extractLsb' lo n := by
  rw [← h, BitVec.extractLsb'_and, hmask, BitVec.and_allOnes]

/-- The word of a decoded instruction lies in that instruction's row. -/
theorem masked_of_decode {w : Word} {i : Instr} (h : decode w = .ok i) : w &&& rowMask i = rowMatch i := by
  rw [← encode_of_decode h]
  cases i with
  | lfsrLoad e slen tlen seed taps => exact Laws.OpcodeRow.lfsrLoad e slen tlen seed taps
  | lfsrStep e => exact Laws.OpcodeRow.lfsrStep e
  | caInit sv => exact Laws.OpcodeRow.caInit sv
  | caNext => exact Laws.OpcodeRow.caNext

section
variable {w : Word}

theorem decode_of_loadRow (h : w &&& 0xE0000000#32 = 0x20000000#32) :
    decode w = .ok (.lfsrLoad (if w.getLsbD 28 then .lfsr2 else .lfsr1) ((w >>> 24).toNat % 16)
      ((w >>> 20).toNat % 16) ((w >>> 10).setWidth 10) (w.setWidth 10)) := by
  have hop : opField w = 1 := extractLsb'_of_masked 29 3 h (by decide)
  have htaps : w.extractLsb' 0 10 = w.setWidth 10 := by rw [← BitVec.setWidth_ushiftRight_eq_extractLsb]; rfl
  rw [decode_of_opField_one hop, decodeLoad, htaps, BitVec.setWidth_ushiftRight_eq_extractLsb]
  rfl

theorem decode_of_stepRow (h : w &&& 0xEFFFFFFF#32 = 0x40000000#32) :
    decode w = .ok (.lfsrStep (if w.getLsbD 28 then .lfsr2 else .lfsr1)) := by
  have hop : opField w = 2 := extractLsb'_of_masked 29 3 h (by decide)
  have hzero : w.extractLsb' 0 28 = 0 := extractLsb'_of_masked 0 28 h (by decide)
  rw [decode_of_opField_two hop, decodeStep, if_pos hzero]
  rfl

theorem decode_of_initRow (h : w &&& 0xFFFFFF00#32 = 0x60000000#32) : decode w = .ok (.caInit (w.toNat % 256)) := by
  have hop : opField w = 3 := extractLsb'_of_masked 29 3 h (by decide)
  have hzero : w.extractLsb' 8 21 = 0 := extractLsb'_of_masked 8 21 h (by decide)
  rw [decode_of_opField_three hop, decodeInit, if_pos hzero]
  rfl

theorem decode_of_nextRow (h : w &&& 0xFFFFFFFF#32 = 0x80000000#32) : decode w = .ok .caNext := by
  have hop : opField w = 4 := extractLsb'_of_masked 29 3 h (by decide)
  have hzero : w.extractLsb' 0 29 = 0 := extractLsb'_of_masked 0 29 h (by decide)
  rw [decode_of_opField_four hop, decodeNext, if_pos hzero]

theorem decode_eq_error_of_no_row (hload : w &&& 0xE0000000#32 ≠ 0x20000000#32)
    (hstep : w &&& 0xEFFFFFFF#32 ≠ 0x40000000#32) (hinit : w &&& 0xFFFFFF00#32 ≠ 0x60000000#32)
    (hnext : w &&& 0xFFFFFFFF#32 ≠ 0x80000000#32) : ∃ why, decode w = .error why := by
  cases hd : decode w with
  | error why => exact ⟨why, rfl⟩
  | ok i =>
    have hrow := masked_of_decode hd
    cases i with
    | lfsrLoad e slen tlen seed taps => exact absurd hrow hload
    | lfsrStep e => exact absurd hrow hstep
    | caInit sv => exact absurd hrow hinit
    | caNext => exact absurd hrow hnext

/-- Two rows that keep the whole operation field, and want different operations there, share no word. -/
theorem not_both_masked {p q : Word × Word}
    (h : opField p.1 = BitVec.allOnes 3 ∧ opField q.1 = BitVec.allOnes 3 ∧ opField p.2 ≠ opField q.2) :
    ¬ (w &&& p.1 = p.2 ∧ w &&& q.1 = q.2) := by
  obtain ⟨hp, hq, hne⟩ := h
  rintro ⟨hwp, hwq⟩
  exact hne ((extractLsb'_of_masked 29 3 hwp hp).symm.trans (extractLsb'_of_masked 29 3 hwq hq))

end

/-- Settles O9: a row's mask keeps the fields the decoder tests, a decoded word lies in its row, and the rows differ in
the operation field. -/
theorem decodeFollowsMaskTable : Obligations.DecodeFollowsMaskTable :=
  fun _ => ⟨decode_of_loadRow, decode_of_stepRow, decode_of_initRow, decode_of_nextRow, decode_eq_error_of_no_row,
    List.Pairwise.imp not_both_masked (by decide)⟩

/-- Settles O8: nine closed words, each decoded by evaluation. -/
theorem sampleWordsDecode : Obligations.SampleWordsDecode := by
  unfold Obligations.SampleWordsDecode
  decide

end Sys2Proof

/-! PROOFS. What commands answer: their success on a clear block (R42, R57, R58), and the status that shows a fault (R41,
R65, R82). -/

namespace Sys2Proof.Machine

/-- The block with the generator of the SV whose ROM word is `word` constructed, and the command answered (R57). -/
def generator (s : State) (word : Reg) : State :=
  respond ((s.setEngine .lfsr1 g1Engine).setEngine .lfsr2 (g2Engine word)) statusOk 0#8

theorem generator_responses (s : State) (word : Reg) :
    (generator s word).responses = s.responses ++ [0x00000000#32] := by
  simp [generator, responseWord_ok]

/-! The successes of `CA.INIT` and `CA.NEXT` (R57, R58). -/

section
variable {s : State} (hf : s.fault = 0#4)
include hf

theorem exec_caInit_of_seed {sv : Nat} {word : Reg} (h1 : 1 ≤ sv) (h32 : sv ≤ 32)
    (hword : s.seedTable[sv - 1]? = some word) :
    exec (.caInit sv) s = .next (generator s word) := by
  have hinside : ¬ (sv < 1 ∨ sv > 32) := by omega
  have hread : romRead s sv = some word := by rw [romRead, if_pos ⟨h1, h32⟩, hword]
  rw [exec, execCaInit, unlessFaulted_of_clear _ hf, if_neg hinside, hread]
  rfl

theorem exec_caNext_of_valid (h1 : s.engine1.v = true) (h2 : s.engine2.v = true) :
    exec .caNext s = .next (respond (stepEngine (stepEngine s .lfsr1) .lfsr2) statusOk
      (chipByte (chipOf (Bool.xor (stepOutput s .lfsr1) (stepOutput s .lfsr2))))) := by
  rw [exec, execCaNext, unlessFaulted_of_clear _ hf, if_pos (by rw [bothConfigured, h1, h2, Bool.and_self])]

/-- `G1.LOAD` and then `G2.LOAD` (R44): each engine is constructed and answered on its own (R48). -/
theorem execAll_g1Load_g2Load (word : Reg) :
    execAll (expand .g1Load ++ expand (.g2Load word)) s =
      .next (respond ((respond (s.setEngine .lfsr1 g1Engine) statusOk 0#8).setEngine .lfsr2 (g2Engine word))
        statusOk 0#8) :=
  (execAll_cons _ (exec_lfsrLoad_ten hf .lfsr1 seedG1 tapsG1)).trans
    (execAll_singleton (exec_lfsrLoad_ten (by simpa using hf) .lfsr2 word tapsG2))

end

/-- Settles O22: both write the same two engines, and only the number of responses differs. -/
theorem caInitEqualsTwoLoads : Obligations.CaInitEqualsTwoLoads := by
  intro s sv word hf h1 h32 hword
  exact ⟨_, _, exec_caInit_of_seed hf h1 h32 hword, execAll_g1Load_g2Load hf word, rfl, generator_responses s word⟩

/-- Settles O23: the answer of a successful pull is the byte of its chip or bit, and there are two of each. -/
theorem successfulPullsAnswerInAlphabet : Obligations.SuccessfulPullsAnswerInAlphabet := by
  have hchip (c : Chip) : responseWord statusOk (chipByte c) = 0x00000001#32 ∨
      responseWord statusOk (chipByte c) = 0x000000FF#32 := by cases c <;> decide
  have hbit (b : Bool) : responseWord statusOk (bitByte b) = 0x00000000#32 ∨
      responseWord statusOk (bitByte b) = 0x00000001#32 := by cases b <;> decide
  refine ⟨by decide, by decide, fun c => by cases c <;> decide, fun s hf h1 h2 => ?_, fun s e hf hv => ?_⟩
  · exact ⟨_, _, exec_caNext_of_valid hf h1 h2,
      by rw [respond_responses, stepEngine_responses, stepEngine_responses], hchip _⟩
  · exact ⟨_, _, exec_lfsrStep_of_valid hf hv, by rw [respond_responses, stepEngine_responses], hbit _⟩

/-- Settles O4: the word passes the sticky check and fails the decoder, and the raised cause has code 1. -/
theorem illegalWordTakesFault : Obligations.IllegalWordTakesFault := by
  intro s w rest why hin hf hd
  have hclear : ({ s with inputs := rest } : State).fault = 0#4 := hf
  rw [step_of_command hin, presentCommand, unlessFaulted_of_clear _ hclear, hd]
  rfl

/-! The status field of a response tells whether `FAULT` holds 0 (R41, R82). -/

/-- The status field of a response word is its top four bits (R41). -/
theorem responseWord_ushiftRight (st : BitVec 4) (d : BitVec 8) : responseWord st d >>> 28 = st.setWidth 32 := by
  apply BitVec.eq_of_getLsbD_eq
  intro b hb
  have hdata : d.getLsbD (28 + b) = false := BitVec.getLsbD_of_ge d _ (by omega)
  by_cases h4 : b < 4
  · simp [responseWord, hdata, hb, show 28 + b < 32 by omega]
  · simp [responseWord, hdata, BitVec.getLsbD_of_ge st b (by omega)]

/-- `t` has one response more than `s`, whose status is not `OK` exactly when `t` has gone wrong (R82). -/
def ShowsWrong (s t : State) : Prop :=
  ∃ r : Word, t.responses = s.responses ++ [r] ∧ (WentWrong t ↔ r >>> 28 ≠ 0#32)

/-- A response after writes to registers, whose status is `OK` exactly when these leave 0 in `FAULT`. -/
theorem showsWrong_respond {s u : State} {st : BitVec 4} (hresponses : u.responses = s.responses)
    (hst : u.fault ≠ 0#4 ↔ st ≠ 0#4) (d : BitVec 8) : ShowsWrong s (respond u st d) := by
  have hstatus : ∀ st : BitVec 4, st ≠ 0#4 ↔ st.setWidth 32 ≠ 0#32 := by decide
  exact ⟨_, congrArg (· ++ _) hresponses, by rw [responseWord_ushiftRight]; exact hst.trans (hstatus st)⟩

theorem showsWrong_refuseFaulted {s : State} (hf : s.fault ≠ 0#4) : ShowsWrong s (refuseFaulted s) :=
  showsWrong_respond rfl (iff_of_true hf (by decide)) _

theorem showsWrong_raiseFault (s : State) (c : Cause) : ShowsWrong s (raiseFault s c) :=
  showsWrong_respond rfl Iff.rfl _

theorem showsWrong_ok {s u : State} (hresponses : u.responses = s.responses) (hf : u.fault = 0#4) (d : BitVec 8) :
    ShowsWrong s (respond u statusOk d) :=
  showsWrong_respond hresponses (iff_of_false (not_not_intro hf) (by decide)) d

/-- Every command on a clear block ends in a next state that shows whether it raised a cause (R65). -/
theorem exec_showsWrong (i : Instr) {s : State} (hf : s.fault = 0#4) : ∃ t, exec i s = .next t ∧ ShowsWrong s t := by
  rcases exec_cases i s hf with ⟨c, hx⟩ | ⟨e, seed, taps, -, hx⟩ | ⟨e, -, -, hx⟩ | ⟨sv, word, -, -, -, -, hx⟩ |
    ⟨-, -, -, hx⟩
  · exact ⟨_, hx, showsWrong_raiseFault s c⟩
  · exact ⟨_, hx, showsWrong_ok (by simp) (by simpa using hf) _⟩
  · exact ⟨_, hx, showsWrong_ok (by simp) (by simpa using hf) _⟩
  · exact ⟨_, hx, showsWrong_ok (by simp) (by simpa using hf) _⟩
  · exact ⟨_, hx, showsWrong_ok (by simp) (by simpa using hf) _⟩

theorem presentCommand_showsWrong (w : Word) (s : State) : ∃ t, presentCommand w s = .next t ∧ ShowsWrong s t := by
  rw [presentCommand]
  by_cases hf : s.fault = 0#4
  · rw [unlessFaulted_of_clear _ hf]
    cases decode w with
    | error why => exact ⟨_, rfl, showsWrong_raiseFault s _⟩
    | ok i => exact exec_showsWrong i hf
  · exact ⟨_, unlessFaulted_of_faulted _ hf, showsWrong_refuseFaulted hf⟩

/-- Settles O27: a refused, illegal or decoded word is each answered with a status that is 0 exactly when `FAULT` is. -/
theorem wrongRunShowsInTheStatus : Obligations.WrongRunShowsInTheStatus := by
  intro s w rest hin
  obtain ⟨t, ht, r, hr, hwrong⟩ := presentCommand_showsWrong w { s with inputs := rest }
  exact ⟨t, r, (step_of_command hin).trans ht, hr, hwrong⟩

end Sys2Proof.Machine

/-! PROOFS. Pulls answer the output sequence of an engine (R50) and the chip sequence of an SV (R60). -/

namespace Sys2Proof.Machine

/-- Settles O35: the pulls of either engine leave what `pulled` says. -/
theorem pulledBitsFollowOutputSequence : Obligations.PulledBitsFollowOutputSequence :=
  fun _ n hf => ⟨fun hv => execAll_lfsrPull (e := .lfsr1) hf hv n, fun hv => execAll_lfsrPull (e := .lfsr2) hf hv n⟩

/-- The chip of index `k` that the two engines of `s` give together (R50, R58). -/
def combinedChip (s : State) (k : Nat) : Chip :=
  chipOf (Bool.xor (outSeq s.engine1.r s.engine1.m k) (outSeq s.engine2.r s.engine2.m k))

/-- The state after `n` pulls of the generator (R50, R58): `r_n` in both engines, and `n` chips answered. -/
def chipsPulled (s : State) (n : Nat) : State :=
  { s with
    engine1 := { s.engine1 with r := stateSeq s.engine1.r s.engine1.m n }
    engine2 := { s.engine2 with r := stateSeq s.engine2.r s.engine2.m n }
    responses := s.responses ++ (List.range n).map fun k => chipWord (combinedChip s k) }

theorem chipsPulled_zero (s : State) : chipsPulled s 0 = s := by
  simp [chipsPulled, stateSeq]

/-- One pull more: both engines shifted, and the chip of their old rear bits answered (R47, R58). -/
theorem chipsPulled_succ (s : State) (n : Nat) :
    chipsPulled s (n + 1) =
      respond (stepEngine (stepEngine (chipsPulled s n) .lfsr1) .lfsr2) statusOk
        (chipByte (chipOf (Bool.xor (stepOutput (chipsPulled s n) .lfsr1) (stepOutput (chipsPulled s n) .lfsr2)))) := by
  have hword (c : Chip) : responseWord statusOk (chipByte c) = chipWord c := by cases c <;> decide
  simp [chipsPulled, combinedChip, respond, stepEngine, stepOutput, State.setEngine, State.engine, hword, stateSeq,
    outSeq, List.range_succ]

/-- `n` pulls of a generator whose engines are both constructed, on a clear block (R58). -/
theorem execAll_caPull {s : State} (hf : s.fault = 0#4) (h1 : s.engine1.v = true) (h2 : s.engine2.v = true) (n : Nat) :
    execAll (expand (.caPull n)) s = .next (chipsPulled s n) := by
  induction n with
  | zero => rw [chipsPulled_zero]; rfl
  | succ n ih =>
    have hlast : exec .caNext (chipsPulled s n) = .next (chipsPulled s (n + 1)) := by
      rw [chipsPulled_succ]
      exact exec_caNext_of_valid (s := chipsPulled s n) hf h1 h2
    calc execAll (expand (.caPull (n + 1))) s
        = execAll (expand (.caPull n) ++ [.caNext]) s := by simp only [expand, List.replicate_succ']
      _ = .next (chipsPulled s (n + 1)) := by rw [execAll_append _ ih, execAll_singleton hlast]

/-- Settles O41: `CA.INIT` loads the seeds and masks of the SV, and the pulls combine the sequences of what it loaded. -/
theorem pulledChipsFollowChipSequence : Obligations.PulledChipsFollowChipSequence := by
  intro s sv word n hf h1 h32 hword
  have hinit : execAll (expand (.caCodeGen sv)) s = _ := execAll_singleton (exec_caInit_of_seed hf h1 h32 hword)
  rw [execAll_append _ hinit]
  exact execAll_caPull (s := generator s word) hf rfl rfl n

end Sys2Proof.Machine

/-! PROOFS. The words of the pseudo-commands (R44). -/

namespace Sys2Proof.Machine

/-- The word of `G2.LOAD`: the fixed fields, and the seed at its place (R35, R44). -/
theorem encode_g2Load (seed : Reg) :
    encode (.lfsrLoad .lfsr2 10 10 seed tapsG2) = 0x3AA00197#32 ||| seed.setWidth 32 <<< 10 := by
  rw [encode, encodeLoad, BitVec.or_assoc _ (placed seed 10), BitVec.or_comm (placed seed 10), ← BitVec.or_assoc]
  rfl

/-- The word of `CA.INIT`: the SV id is added to the operation's word (R37, R44). -/
theorem encode_caInit {sv : Nat} (h : sv ≤ 255) : encode (.caInit sv) = BitVec.ofNat 32 (0x60000000 + sv) := by
  have hsv : placed (BitVec.ofNat 8 sv) 0 = BitVec.ofNat 32 sv := by
    rw [placed, BitVec.shiftLeft_zero, BitVec.setWidth_ofNat_of_le_of_lt (by decide) (by omega)]
  have hor : 0x60000000 + sv = 0x60000000 ||| sv := Nat.two_pow_add_eq_or_of_lt (i := 8) (by omega) 0x600000
  rw [encode, encodeInit, hsv, hor, BitVec.ofNat_or]
  rfl

/-- Settles O45: the expansions are read off, and each command's word off its format. -/
theorem pseudoCommandsAssemble : Obligations.PseudoCommandsAssemble := by
  refine ⟨by decide, fun seed => ?_, fun _ => List.map_replicate, fun _ => ⟨List.map_replicate, List.map_replicate⟩,
    fun sv hsv => ?_, fun _ _ _ => rfl, ?_⟩
  · rw [expand, List.map_singleton, encode_g2Load]
  · rw [expand, List.map_singleton, encode_caInit hsv]
  · rw [List.range'_eq_map_range, List.flatMap_map]
    simp only [expand, Nat.add_comm 1, List.singleton_append]

end Sys2Proof.Machine

/-! PROOFS. The feedback (R46): an exclusive-or of bits over a list of positions, for the numeral and for the source's
vectors alike. -/

namespace Sys2Proof.Machine

/-- The exclusive-or of the bits `f i` over the positions `i` of a list. -/
def xorOver (f : Nat → Bool) (l : List Nat) : Bool := l.foldr (fun i acc => Bool.xor (f i) acc) false

theorem xorOver_cons (f : Nat → Bool) (i : Nat) (l : List Nat) : xorOver f (i :: l) = Bool.xor (f i) (xorOver f l) := rfl

theorem feedback_eq_xorOver (r m : Reg) :
    feedback r m = xorOver (fun b => r.getLsbD b && m.getLsbD b) (List.range 10) := by
  simp only [feedback, parity, BitVec.getLsbD_and, xorOver]

theorem sourceFeedback_eq_xorOver (state tap : List Bool) :
    sourceFeedback state tap =
      xorOver (fun i => state.getD i false) ((List.range 10).filter fun i => tap.getD i false) := rfl

/-- An exclusive-or is 1 exactly when an odd number of its bits are. -/
theorem xorOver_eq_true_iff (f : Nat → Bool) (l : List Nat) : xorOver f l = true ↔ (l.filter f).length % 2 = 1 := by
  induction l with
  | nil => simp [xorOver]
  | cons i l ih =>
    rw [xorOver_cons, List.filter_cons]
    cases f i with
    | false => simpa using ih
    | true =>
      rw [Bool.true_xor, Bool.not_eq_true', ← Bool.not_eq_true, ih, if_pos rfl, List.length_cons]
      omega

theorem xorOver_xor (f g : Nat → Bool) (l : List Nat) :
    xorOver (fun i => Bool.xor (f i) (g i)) l = Bool.xor (xorOver f l) (xorOver g l) := by
  induction l with
  | nil => rfl
  | cons i l ih => rw [xorOver_cons, ih, xorOver_cons, xorOver_cons, Bool.xor_assoc, Bool.xor_assoc,
      Bool.xor_left_comm (g i)]

/-- Leaving positions out is masking their bits. -/
theorem xorOver_filter (f p : Nat → Bool) (l : List Nat) :
    xorOver f (l.filter p) = xorOver (fun i => p i && f i) l := by
  induction l with
  | nil => rfl
  | cons i l ih =>
    rw [List.filter_cons, xorOver_cons]
    cases p i with
    | false => simpa using ih
    | true => rw [if_pos rfl, xorOver_cons, ih, Bool.true_and]

/-- The ten positions give the same exclusive-or when they are numbered from the other end (R7). -/
theorem xorOver_range_ten_rev (f : Nat → Bool) :
    xorOver (fun i => f (9 - i)) (List.range 10) = xorOver f (List.range 10) := by
  have hrev : (List.range 10).map (9 - ·) = (List.range 10).reverse := by decide
  have : LeftCommutative fun i acc => Bool.xor (f i) acc := ⟨fun _ _ _ => Bool.xor_left_comm _ _ _⟩
  calc xorOver (fun i => f (9 - i)) (List.range 10)
      = xorOver f ((List.range 10).map (9 - ·)) := List.foldr_map.symm
    _ = xorOver f (List.range 10).reverse := by rw [hrev]
    _ = xorOver f (List.range 10) := (List.reverse_perm _).foldr_eq false

theorem xorOver_congr {f g : Nat → Bool} {l : List Nat} (h : ∀ i ∈ l, f i = g i) : xorOver f l = xorOver g l :=
  List.foldr_ext _ _ _ fun i hi acc => by rw [h i hi]

/-- The feedback is linear in the state (R46). -/
theorem feedback_xor (r q m : Reg) : feedback (r ^^^ q) m = Bool.xor (feedback r m) (feedback q m) := by
  simp only [feedback_eq_xorOver, BitVec.getLsbD_xor, Bool.and_xor_distrib_right, xorOver_xor]

@[simp] theorem feedback_zero_state (m : Reg) : feedback 0#10 m = false := by
  simp [feedback, parity]

/-- Settles O13: the feedback is an exclusive-or over the positions, of which the tapped bits that hold 1 are counted. -/
theorem feedbackIsParityOfTappedBits : Obligations.FeedbackIsParityOfTappedBits := by
  refine fun r q m => ⟨?_, feedback_zero_mask r, feedback_xor r q m, feedback_zero_state m⟩
  simp only [feedback_eq_xorOver, xorOver_eq_true_iff, Bool.and_comm]

end Sys2Proof.Machine

/-! PROOFS. The shift (R47): as a formula on the numeral, and as the source's step on vectors. -/

namespace Sys2Proof.Machine

/-- Two states are equal if the nine bits a shift moves toward the rear are, and the front bit. -/
theorem eq_of_front_of_body {r q : Reg} (hfront : r.getLsbD 9 = q.getLsbD 9)
    (hbody : ∀ b < 9, r.getLsbD b = q.getLsbD b) : r = q := by
  apply BitVec.eq_of_getLsbD_eq
  intro b hb
  by_cases h9 : b < 9
  · exact hbody b h9
  · obtain rfl : b = 9 := by omega
    exact hfront

/-- The shift as R47 writes it on numerals: `(f << 9) | (r >> 1)`. -/
theorem shifted_eq_or (r m : Reg) :
    shifted r m = (BitVec.ofBool (feedback r m)).setWidth 10 <<< 9 ||| r >>> 1 := by
  refine eq_of_front_of_body ?_ fun b hb => ?_
  · rw [shifted_front]
    simp
  · rw [shifted_body r m b hb]
    simp [hb, Nat.add_comm]

/-- The source's feedback is the feedback of the numerals: it reads the same bits from the other end (R7, R46). -/
theorem sourceFeedback_vec (r m : Reg) : sourceFeedback (vec r).toList (vec m).toList = feedback r m := by
  have hbit (x : Reg) (i : Nat) (hi : i < 10) : (vec x).toList.getD i false = x.getLsbD (9 - i) := by
    simp [List.getD_eq_getElem?_getD, hi]
  calc sourceFeedback (vec r).toList (vec m).toList
      = xorOver (fun i => r.getLsbD (9 - i) && m.getLsbD (9 - i)) (List.range 10) := by
        rw [sourceFeedback_eq_xorOver, xorOver_filter]
        exact xorOver_congr fun i hi => by
          rw [hbit r i (List.mem_range.mp hi), hbit m i (List.mem_range.mp hi), Bool.and_comm]
    _ = feedback r m := by
        rw [feedback_eq_xorOver, ← xorOver_range_ten_rev fun b => r.getLsbD b && m.getLsbD b]

/-- The vector of a shifted numeral: the feedback, and the first nine elements of the old vector (R7, R47). -/
theorem toList_vec_shifted (r m : Reg) :
    (vec (shifted r m)).toList = feedback r m :: (vec r).toList.take 9 := by
  refine List.ext_getElem (by simp) fun i hi _ => ?_
  rw [Vector.length_toList] at hi
  cases i with
  | zero => rw [Vector.getElem_toList, getElem_vec, shifted_front, List.getElem_cons_zero]
  | succ i =>
    have hnext : 9 - (i + 1) + 1 = 9 - i := by omega
    rw [Vector.getElem_toList, getElem_vec, shifted_body r m _ (by omega), hnext, List.getElem_cons_succ,
      List.getElem_take, Vector.getElem_toList, getElem_vec]

/-- The step of the vectors is the shift of the numerals, and its output is the rear bit (R7, R47). -/
theorem sourceStep_vec (r m : Reg) :
    sourceStep (vec r).toList (vec m).toList = ((vec (shifted r m)).toList, rear r) := by
  rw [sourceStep, sourceFeedback_vec, toList_vec_shifted]
  simp [rear, List.getD_eq_getElem?_getD]

/-- Settles O14: what a step leaves in its engine is the shift, which is read bit by bit and as a vector. -/
theorem engineStepShiftsOneEngine : Obligations.EngineStepShiftsOneEngine := by
  intro s e
  rw [engine_stepEngine_self]
  refine ⟨rfl, shifted_front _ _, fun b hb => shifted_body _ _ b hb, shifted_eq_or _ _, ?_, ?_, sourceStep_vec _ _⟩
  · rintro rfl
    rfl
  · rintro rfl
    rfl

end Sys2Proof.Machine

/-! PROOFS. The state sequence (R50): it is linear in the seed, and it runs on from any of its states. -/

namespace Sys2Proof.Machine

theorem stateSeq_succ (r m : Reg) (k : Nat) : stateSeq r m (k + 1) = shifted (stateSeq r m k) m := rfl

theorem stateSeq_add (r m : Reg) (j k : Nat) : stateSeq r m (j + k) = stateSeq (stateSeq r m j) m k := by
  induction k with
  | zero => rfl
  | succ k ih => rw [← Nat.add_assoc, stateSeq_succ, ih, stateSeq_succ]

/-- The sequence is the shift applied again and again. -/
theorem stateSeq_eq_iterate (r m : Reg) (k : Nat) : stateSeq r m k = (fun q => shifted q m)^[k] r := by
  induction k with
  | zero => rfl
  | succ k ih => rw [stateSeq_succ, ih, Function.iterate_succ_apply']

/-- The shift is linear, because the feedback is and every other bit is moved (R46, R47). -/
theorem shifted_xor (r q m : Reg) : shifted (r ^^^ q) m = shifted r m ^^^ shifted q m := by
  refine eq_of_front_of_body ?_ fun b hb => ?_
  · rw [BitVec.getLsbD_xor, shifted_front, shifted_front, shifted_front, feedback_xor]
  · rw [BitVec.getLsbD_xor, shifted_body _ m b hb, shifted_body _ m b hb, shifted_body _ m b hb, BitVec.getLsbD_xor]

/-- The zero state is a fixed point of the step under every mask (R52). -/
@[simp] theorem shifted_zero (m : Reg) : shifted 0#10 m = 0#10 := by
  simpa using shifted_xor 0#10 0#10 m

theorem stateSeq_xor (r q m : Reg) (k : Nat) : stateSeq (r ^^^ q) m k = stateSeq r m k ^^^ stateSeq q m k := by
  induction k with
  | zero => rfl
  | succ k ih => rw [stateSeq_succ, ih, shifted_xor, stateSeq_succ, stateSeq_succ]

@[simp] theorem stateSeq_zero (m : Reg) (k : Nat) : stateSeq 0#10 m k = 0#10 := by
  induction k with
  | zero => rfl
  | succ k ih => rw [stateSeq_succ, ih, shifted_zero]

/-- Settles O37: the state never leaves 0, so its rear bit never is 1. -/
theorem zeroSeedOutputsZeros : Obligations.ZeroSeedOutputsZeros :=
  fun m k => ⟨stateSeq_zero m k, by rw [outSeq, stateSeq_zero]; rfl⟩

/-- A bit moves one place toward the rear in each step until it gets there (R47, R51). -/
theorem getLsbD_stateSeq (r m : Reg) {k b : Nat} (h : b + k < 10) :
    (stateSeq r m k).getLsbD b = r.getLsbD (b + k) := by
  induction k generalizing b with
  | zero => rfl
  | succ k ih =>
    rw [stateSeq_succ, shifted_body _ _ _ (by omega), ih (by omega)]
    congr 1
    omega

theorem outSeq_of_lt_ten (r m : Reg) {k : Nat} (h : k < 10) : outSeq r m k = r.getLsbD k := by
  rw [outSeq, rear, getLsbD_stateSeq r m (by omega), Nat.zero_add]

/-- A fed-back bit enters at the front and is put out ten steps later (R47, R51). -/
theorem outSeq_ten_add (r m : Reg) (k : Nat) : outSeq r m (10 + k) = feedback (stateSeq r m k) m := by
  have hsplit : 10 + k = k + 1 + 9 := by omega
  rw [outSeq, rear, hsplit, stateSeq_add, getLsbD_stateSeq _ m (by omega), stateSeq_succ, shifted_front]

/-- Settles O36: a seed bit, or one fed back, moves to the rear and is put out there. -/
theorem firstTenOutputsAreTheSeed : Obligations.FirstTenOutputsAreTheSeed :=
  fun seed m k => ⟨outSeq_of_lt_ten seed m, outSeq_ten_add seed m k⟩

/-- Settles O43: both registers put out their seeds, and LFSR1's is ten 1s. -/
theorem firstTenChipsComplementTheSeed : Obligations.FirstTenChipsComplementTheSeed := by
  intro word k hk
  have hones : seedG1.getLsbD k = true := by
    interval_cases k <;> decide
  rw [chipSeq, outSeq_of_lt_ten _ _ hk, outSeq_of_lt_ten _ _ hk, hones]
  cases word.getLsbD k with
  | false => rfl
  | true => rfl

end Sys2Proof.Machine

/-! PROOFS. The step as a map of the register's values (R52): when it is a bijection, and how long its cycles are. -/

namespace Sys2Proof.Machine

/-- The state with 1 in the rear alone feeds back what the mask taps there. -/
theorem feedback_one (m : Reg) : feedback 1#10 m = m.getLsbD 0 := by
  simp [feedback, parity, List.range_succ]

theorem eq_of_rear_of_rest {r q : Reg} (hrear : r.getLsbD 0 = q.getLsbD 0)
    (hrest : ∀ b < 9, r.getLsbD (b + 1) = q.getLsbD (b + 1)) : r = q := by
  apply BitVec.eq_of_getLsbD_eq
  intro b hb
  cases b with
  | zero => exact hrear
  | succ b => exact hrest b (by omega)

/-- What the shift forgets is the rear bit, and only where the rear is not tapped (R47). -/
theorem shifted_eq_zero_iff (r m : Reg) : shifted r m = 0#10 ↔ r = 0#10 ∨ r = 1#10 ∧ m.getLsbD 0 = false := by
  constructor
  · intro h
    have hbody (b : Nat) (hb : b < 9) : r.getLsbD (b + 1) = false := by
      rw [← shifted_body r m b hb, h, BitVec.getLsbD_zero]
    have heq (q : Reg) (hrear : r.getLsbD 0 = q.getLsbD 0) (hq : ∀ b < 9, q.getLsbD (b + 1) = false) : r = q :=
      eq_of_rear_of_rest hrear fun b hb => (hbody b hb).trans (hq b hb).symm
    cases hrear : r.getLsbD 0 with
    | false => exact .inl (heq 0#10 hrear (by decide))
    | true =>
      have hr : r = 1#10 := heq 1#10 hrear (by decide)
      refine .inr ⟨hr, ?_⟩
      rw [← feedback_one, ← hr, ← shifted_front, h, BitVec.getLsbD_zero]
  · rintro (rfl | ⟨rfl, hm⟩)
    · exact shifted_zero m
    · rw [shifted_eq_or, feedback_one, hm]
      rfl

/-- Where the rear is tapped the shift forgets nothing. -/
theorem eq_zero_of_shifted_eq_zero {r m : Reg} (hm : m.getLsbD 0 = true) (h : shifted r m = 0#10) : r = 0#10 := by
  rcases (shifted_eq_zero_iff r m).mp h with hr | ⟨-, hm'⟩
  · exact hr
  · exact absurd (hm.symm.trans hm') (by decide)

theorem shifted_injective {m : Reg} (hm : m.getLsbD 0 = true) : Function.Injective fun r => shifted r m := by
  intro r q h
  have hdiff : shifted (r ^^^ q) m = 0#10 := by rw [shifted_xor, BitVec.xor_eq_zero_iff]; exact h
  exact BitVec.xor_eq_zero_iff.mp (eq_zero_of_shifted_eq_zero hm hdiff)

/-- Settles O38: on finitely many values bijective is injective, and 0 and 1 collide when the rear is not tapped. -/
theorem stepBijectiveExactlyWhenRearTapped : Obligations.StepBijectiveExactlyWhenRearTapped := by
  intro m
  rw [← Finite.injective_iff_bijective]
  refine ⟨fun hinj => ?_, shifted_injective⟩
  by_contra hm
  have hcollide : shifted 1#10 m = shifted 0#10 m := by
    rw [shifted_zero, (shifted_eq_zero_iff 1#10 m).mpr (.inr ⟨rfl, Bool.eq_false_of_not_eq_true hm⟩)]
  exact absurd (hinj hcollide) (by decide)

/-! The state with 1 at the front alone generates all states. -/

theorem eq_or_eq_xor_front {r q : Reg} (hbody : ∀ b < 9, r.getLsbD b = q.getLsbD b) :
    r = q ∨ r = q ^^^ 0x200#10 := by
  by_cases hfront : r.getLsbD 9 = q.getLsbD 9
  · exact .inl (eq_of_front_of_body hfront hbody)
  · refine .inr (eq_of_front_of_body ?_ fun b hb => ?_)
    · rw [BitVec.getLsbD_xor, Bool.eq_not_of_ne hfront]
      exact (Bool.xor_true _).symm
    · have hlow : ∀ b < 9, (0x200#10 : Reg).getLsbD b = false := by decide
      rw [BitVec.getLsbD_xor, hlow b hb, Bool.xor_false, hbody b hb]

theorem getLsbD_shiftLeft_one_succ (r : Reg) {b : Nat} (h : b < 9) : (r <<< 1).getLsbD (b + 1) = r.getLsbD b := by
  have hb : b + 1 < 10 := by omega
  rw [BitVec.getLsbD_shiftLeft, decide_eq_true hb]
  simp

/-- A set of states that is closed under exclusive-or and the shift, and holds the state with 1 at the front alone, holds
every state: each is the shift of one with one place less in use, but for its front bit. -/
theorem forall_of_front {m : Reg} {p : Reg → Prop} (hzero : p 0#10) (hfront : p 0x200#10)
    (hxor : ∀ r q, p r → p q → p (r ^^^ q)) (hshift : ∀ r, p r → p (shifted r m)) (r : Reg) : p r := by
  have hplaces (n : Nat) : ∀ r : Reg, (∀ b < 10 - n, r.getLsbD b = false) → p r := by
    induction n with
    | zero =>
      intro r hr
      have hr0 : r = 0#10 := BitVec.eq_of_getLsbD_eq fun b hb => by rw [hr b hb, BitVec.getLsbD_zero]
      rwa [hr0]
    | succ n ih =>
      intro r hr
      have hunshifted : p (r <<< 1) := by
        refine ih _ fun b hb => ?_
        cases b with
        | zero => simp
        | succ b => rw [getLsbD_shiftLeft_one_succ r (by omega), hr b (by omega)]
      have hbody (b : Nat) (hb : b < 9) : r.getLsbD b = (shifted (r <<< 1) m).getLsbD b := by
        rw [shifted_body _ _ _ hb, getLsbD_shiftLeft_one_succ r hb]
      rcases eq_or_eq_xor_front hbody with h | h
      · rw [h]
        exact hshift _ hunshifted
      · rw [h]
        exact hxor _ _ (hshift _ hunshifted) hfront
  exact hplaces 10 r (by simp)

end Sys2Proof.Machine

/-! PROOFS. Sums of states along a sequence, and the cycle of a mask that is primitive (R52). The states of a sequence are
the powers of an element of the field of 1024 elements: `AddsTo m a b` says `x^a + 1 = x^b` there. -/

namespace Sys2Proof.Machine

/-- The state after `a` steps plus the state itself is the state after `b` steps, from wherever the sequence starts. -/
def AddsTo (m : Reg) (a b : Nat) : Prop := ∀ r : Reg, stateSeq r m a ^^^ r = stateSeq r m b

/-- It is enough to run the sequence that starts with 1 at the front alone. -/
theorem addsTo_of_front {m : Reg} {a b : Nat} (h : stateSeq 0x200#10 m a ^^^ 0x200#10 = stateSeq 0x200#10 m b) :
    AddsTo m a b := by
  have hshift (r : Reg) (k : Nat) : stateSeq (shifted r m) m k = shifted (stateSeq r m k) m := by
    rw [← stateSeq_shifted, stateSeq_succ]
  refine forall_of_front (m := m) (by simp) h (fun r q hr hq => ?_) fun r hr => ?_
  · rw [stateSeq_xor, stateSeq_xor, ← hr, ← hq]
    ac_rfl
  · rw [hshift, hshift, ← hr, shifted_xor]

theorem eq_zero_of_stateSeq_eq_zero {r m : Reg} {k : Nat} (hm : m.getLsbD 0 = true) (h : stateSeq r m k = 0#10) :
    r = 0#10 := by
  induction k with
  | zero => exact h
  | succ k ih => exact ih (eq_zero_of_shifted_eq_zero hm h)

/-- No state but 0 returns after `a` steps if the difference is itself a state of the sequence. -/
theorem eq_zero_of_addsTo {r m : Reg} {a b : Nat} (hm : m.getLsbD 0 = true) (h : AddsTo m a b)
    (hret : stateSeq r m a = r) : r = 0#10 := by
  have hb : stateSeq r m b = 0#10 := by rw [← h r, hret, BitVec.xor_self]
  exact eq_zero_of_stateSeq_eq_zero hm hb

/-- `x^(2a) + x^a + 1 = 0` gives `x^(3a) = 1`. -/
theorem stateSeq_three_mul_of_addsTo {m : Reg} {a : Nat} (h : AddsTo m a (2 * a)) (r : Reg) :
    stateSeq r m (3 * a) = r := by
  have hsplit : 3 * a = a + 2 * a := by omega
  calc stateSeq r m (3 * a)
      = stateSeq (stateSeq r m a) m a ^^^ stateSeq r m a := by rw [hsplit, stateSeq_add, h]
    _ = stateSeq r m (2 * a) ^^^ stateSeq r m a := by rw [← stateSeq_add, Nat.two_mul]
    _ = stateSeq r m a ^^^ r ^^^ stateSeq r m a := by rw [h]
    _ = r := by rw [BitVec.xor_comm (stateSeq r m a) r, BitVec.xor_assoc, BitVec.xor_self, BitVec.xor_zero]

/-- What makes the cycle of a mask as long as it can be: the rear is tapped, and for each prime 3, 11 and 31 of 1023 a sum
that lets no state return after a third, an eleventh or a thirty-first of 1023 steps. -/
structure PrimitiveMask (m : Reg) : Prop where
  rearTapped : m.getLsbD 0 = true
  third : AddsTo m 341 682
  eleventh : ∃ b, AddsTo m 93 b
  thirtyFirst : ∃ b, AddsTo m 33 b

/-! The exponents `b` are those of `x^a + 1` in the field of each mask; the kernel runs the two sequences that start with 1
at the front alone, for at most 682 steps. -/

theorem primitiveMask_tapsG1 : PrimitiveMask tapsG1 where
  rearTapped := by decide
  third := addsTo_of_front (by decide +kernel)
  eleventh := ⟨459, addsTo_of_front (by decide +kernel)⟩
  thirtyFirst := ⟨396, addsTo_of_front (by decide +kernel)⟩

theorem primitiveMask_tapsG2 : PrimitiveMask tapsG2 where
  rearTapped := by decide
  third := addsTo_of_front (by decide +kernel)
  eleventh := ⟨525, addsTo_of_front (by decide +kernel)⟩
  thirtyFirst := ⟨429, addsTo_of_front (by decide +kernel)⟩

/-- A divisor of 1023 = 3 · 11 · 31 that divides no quotient of 1023 by a prime is 1023. -/
theorem eq_1023_of_dvd {k : Nat} (h : k ∣ 1023) (h3 : ¬ k ∣ 341) (h11 : ¬ k ∣ 93) (h31 : ¬ k ∣ 33) : k = 1023 := by
  have hk : k ∈ Nat.divisors 1023 := by simpa using h
  have hdivisors : Nat.divisors 1023 = {1, 3, 11, 31, 33, 93, 341, 1023} := by simp [Nat.divisors_ofNat]
  rw [hdivisors] at hk
  simp only [Finset.mem_insert, Finset.mem_singleton] at hk
  rcases hk with rfl | rfl | rfl | rfl | rfl | rfl | rfl | rfl <;> omega

section
variable {m : Reg} (hm : PrimitiveMask m)
include hm

theorem stateSeq_1023 (r : Reg) : stateSeq r m 1023 = r :=
  stateSeq_three_mul_of_addsTo (a := 341) hm.third r

theorem minimalPeriod_shifted {r : Reg} (hr : r ≠ 0#10) : Function.minimalPeriod (fun q => shifted q m) r = 1023 := by
  have hreturn (n : Nat) : Function.minimalPeriod (fun q => shifted q m) r ∣ n ↔ stateSeq r m n = r := by
    rw [← Function.isPeriodicPt_iff_minimalPeriod_dvd, stateSeq_eq_iterate]
    rfl
  have hnot {a b : Nat} (h : AddsTo m a b) : ¬ Function.minimalPeriod (fun q => shifted q m) r ∣ a :=
    fun hdvd => hr (eq_zero_of_addsTo hm.rearTapped h ((hreturn a).mp hdvd))
  obtain ⟨b, h93⟩ := hm.eleventh
  obtain ⟨c, h33⟩ := hm.thirtyFirst
  exact eq_1023_of_dvd ((hreturn 1023).mpr (stateSeq_1023 hm r)) (hnot hm.third) (hnot h93) (hnot h33)

/-- A state returns exactly at the multiples of 1023 steps (R52). -/
theorem stateSeq_eq_self_iff {r : Reg} (hr : r ≠ 0#10) (n : Nat) : stateSeq r m n = r ↔ 1023 ∣ n := by
  rw [← minimalPeriod_shifted hm hr, ← Function.isPeriodicPt_iff_minimalPeriod_dvd, stateSeq_eq_iterate]
  rfl

/-- The 1023 states of a cycle are all there are but 0 (R52). -/
theorem exists_stateSeq_eq {r q : Reg} (hr : r ≠ 0#10) (hq : q ≠ 0#10) : ∃ n < 1023, stateSeq r m n = q := by
  have hinj : Set.InjOn (stateSeq r m) (Finset.range 1023) := by
    have h := Function.iterate_injOn_Iio_minimalPeriod (f := fun q => shifted q m) (x := r)
    rw [minimalPeriod_shifted hm hr] at h
    intro i hi j hj hij
    exact h (by simpa using hi) (by simpa using hj) (by simpa only [stateSeq_eq_iterate] using hij)
  have hnonzero : (Finset.range 1023).image (stateSeq r m) ⊆ Finset.univ.erase 0#10 := by
    intro x hx
    obtain ⟨n, -, rfl⟩ := Finset.mem_image.mp hx
    exact Finset.mem_erase.mpr ⟨fun h => hr (eq_zero_of_stateSeq_eq_zero hm.rearTapped h), Finset.mem_univ _⟩
  have hcard : (Finset.univ.erase (0#10 : Reg)).card ≤ ((Finset.range 1023).image (stateSeq r m)).card := by
    rw [Finset.card_image_of_injOn hinj, Finset.card_erase_of_mem (Finset.mem_univ _), Finset.card_univ,
      ← FinEnum.card_eq_fintypeCard, FinEnum.card_bitVec, Finset.card_range]
    decide
  have hmem : q ∈ (Finset.range 1023).image (stateSeq r m) := by
    rw [Finset.eq_of_subset_of_card_le hnonzero hcard]
    exact Finset.mem_erase.mpr ⟨hq, Finset.mem_univ _⟩
  obtain ⟨n, hn, h⟩ := Finset.mem_image.mp hmem
  exact ⟨n, Finset.mem_range.mp hn, h⟩

end

/-- Settles O39: both masks are primitive. -/
theorem bothMasksCycleThrough1023States : Obligations.BothMasksCycleThrough1023States := by
  intro m hm r hr
  have hprimitive : PrimitiveMask m := by
    rcases hm with rfl | rfl
    · exact primitiveMask_tapsG1
    · exact primitiveMask_tapsG2
  exact ⟨stateSeq_eq_self_iff hprimitive hr, fun q hq => exists_stateSeq_eq hprimitive hr hq⟩

/-- An output sequence repeats with the state sequence it reads. -/
theorem outSeq_add_1023 {m : Reg} (hm : PrimitiveMask m) (r : Reg) (k : Nat) : outSeq r m (k + 1023) = outSeq r m k := by
  rw [outSeq, Nat.add_comm, stateSeq_add, stateSeq_1023 hm, outSeq]

/-- Settles O42: a chip combines two output sequences, and both masks are primitive. -/
theorem chipsRepeatEvery1023 : Obligations.ChipsRepeatEvery1023 := by
  refine fun word => ⟨fun k => ?_, stateSeq_1023 primitiveMask_tapsG1 _, stateSeq_1023 primitiveMask_tapsG2 word⟩
  rw [chipSeq, outSeq_add_1023 primitiveMask_tapsG1, outSeq_add_1023 primitiveMask_tapsG2, chipSeq]

end Sys2Proof.Machine

/-! PROOFS. How `LFSR.LOAD` and `LFSR.STEP` end (R48, R49), and when any command completes (R67). -/

namespace Sys2Proof.Machine

/-- The next state of a refused command, with its response word written out (R66). -/
theorem refuseFaulted_eq (s : State) :
    refuseFaulted s = { s with responses := s.responses ++ [0xF0000000#32 ||| s.fault.setWidth 32] } := by
  rw [refuseFaulted, respond, responseWord_refusal]

/-- Settles O6: each meaning makes the sticky check first. -/
theorem meaningsRefuseWhileFaulted : Obligations.MeaningsRefuseWhileFaulted :=
  fun i s hf => by rw [exec_of_faulted i s hf, refuseFaulted_eq]

theorem responseWord_statusOk (d : BitVec 8) : responseWord statusOk d = d.setWidth 32 := by
  simp [responseWord, statusOk]

theorem ready_lfsrStep_iff (e : EngineId) (s : State) : Ready (.lfsrStep e) s ↔ (s.engine e).v = true := by
  cases e with
  | lfsr1 => exact Iff.rfl
  | lfsr2 => exact Iff.rfl

section
variable {i : Instr} {s : State} (hf : s.fault = 0#4)
include hf

/-- A command whose checks pass writes registers other than `FAULT` and answers `OK` (R48, R49, R57, R58). -/
theorem exec_of_ready (h : Ready i s) :
    ∃ (u : State) (d : BitVec 8), exec i s = .next (respond u statusOk d) ∧ u.fault = 0#4 ∧
      u.responses = s.responses := by
  cases i with
  | lfsrLoad e slen tlen seed taps =>
    obtain ⟨rfl, rfl⟩ := h
    exact ⟨_, _, exec_lfsrLoad_ten hf e seed taps, by simpa using hf, by simp⟩
  | lfsrStep e =>
    exact ⟨_, _, exec_lfsrStep_of_valid hf ((ready_lfsrStep_iff e s).mp h), by simpa using hf, by simp⟩
  | caInit sv =>
    obtain ⟨h1, h32⟩ := h
    exact ⟨_, _, exec_caInit_of_seed hf h1 h32 (Vector.getElem?_eq_getElem (by omega)), by simpa using hf, by simp⟩
  | caNext =>
    obtain ⟨h1, h2⟩ := h
    exact ⟨_, _, exec_caNext_of_valid hf h1 h2, by simpa using hf, by simp⟩

/-- A command whose checks do not all pass raises a cause: every other way to end is under its checks (R65, R67). -/
theorem exec_of_not_ready (h : ¬ Ready i s) : ∃ c, exec i s = .next (raiseFault s c) := by
  rcases exec_cases i s hf with hraise | ⟨e, seed, taps, rfl, -⟩ | ⟨e, rfl, hv, -⟩ | ⟨sv, word, rfl, h1, h32, -, -⟩ |
    ⟨rfl, h1, h2, -⟩
  · exact hraise
  · exact absurd ⟨rfl, rfl⟩ h
  · exact absurd ((ready_lfsrStep_iff e s).mpr hv) h
  · exact absurd ⟨h1, h32⟩ h
  · exact absurd ⟨h1, h2⟩ h

end

/-- Settles O24: the checks decide between a command's own effect and a raised cause. -/
theorem commandCompletesExactlyWhenReady : Obligations.CommandCompletesExactlyWhenReady := by
  refine fun i s hf => ⟨fun h => ?_, fun h => ?_⟩
  · obtain ⟨u, d, hx, hu, hresponses⟩ := exec_of_ready hf h
    exact ⟨_, d, hx, hu, by rw [respond_responses, hresponses, responseWord_statusOk]⟩
  · obtain ⟨c, hx⟩ := exec_of_not_ready hf h
    exact ⟨_, c, hx, rfl, rfl, rfl, by rw [raiseFault_responses, responseWord_cause]⟩

/-- The failure of `LFSR.LOAD` (R48). -/
theorem exec_lfsrLoad_of_ne {s : State} {slen tlen : Nat} (hf : s.fault = 0#4) (h : slen ≠ 10 ∨ tlen ≠ 10)
    (e : EngineId) (seed taps : Reg) :
    exec (.lfsrLoad e slen tlen seed taps) s = .next (raiseFault s .malformedConfig) := by
  rw [exec, execLfsrLoad, unlessFaulted_of_clear _ hf, if_pos h]

/-- The failure of `LFSR.STEP` (R49). -/
theorem exec_lfsrStep_of_not_valid {s : State} {e : EngineId} (hf : s.fault = 0#4) (hv : (s.engine e).v = false) :
    exec (.lfsrStep e) s = .next (raiseFault s .notConfigured) := by
  rw [exec, execLfsrStep, unlessFaulted_of_clear _ hf, hv, if_neg Bool.false_ne_true]

/-- Settles O18: `LFSR.LOAD` succeeds, fails or is refused, and each way is written out for its engine. -/
theorem lfsrLoadConstructsOrRejects : Obligations.LfsrLoadConstructsOrRejects := by
  refine fun s slen tlen seed taps => ⟨?_, fun hf h e => ?_, fun hf e => meaningsRefuseWhileFaulted _ s hf⟩
  · rintro hf rfl rfl
    exact ⟨exec_lfsrLoad_ten hf .lfsr1 seed taps, exec_lfsrLoad_ten hf .lfsr2 seed taps⟩
  · exact exec_lfsrLoad_of_ne hf h e seed taps

/-- Settles O19: `LFSR.STEP` shifts, fails or is refused; the shift is R49's formula and the answer is the rear bit. -/
theorem lfsrStepAnswersRearBit : Obligations.LfsrStepAnswersRearBit := by
  intro s
  have hshift (e : EngineId) (hf : s.fault = 0#4) (hv : (s.engine e).v = true) :
      exec (.lfsrStep e) s = .next
        { s.setEngine e { s.engine e with
            r := (BitVec.ofBool (feedback (s.engine e).r (s.engine e).m)).setWidth 10 <<< 9 ||| (s.engine e).r >>> 1 } with
          responses := s.responses ++ [if (s.engine e).r.getLsbD 0 then 0x00000001#32 else 0x00000000#32] } := by
    rw [exec_lfsrStep_of_valid hf hv, respond, responseWord_bit, stepEngine_responses, stepEngine, shifted_eq_or]
    rfl
  exact ⟨hshift .lfsr1, hshift .lfsr2, fun hf hv => exec_lfsrStep_of_not_valid (e := .lfsr1) hf hv,
    fun hf hv => exec_lfsrStep_of_not_valid (e := .lfsr2) hf hv, fun hf e => meaningsRefuseWhileFaulted _ s hf⟩

end Sys2Proof.Machine

/-! PROOFS. How `CA.INIT` and `CA.NEXT` end (R57, R58), the chip map (R59), and what a construction forgets (R79). -/

namespace Sys2Proof.Machine

/-- Settles O17: the chip map has two rows, and the formula is read off each. -/
theorem chipMapIsTwiceBitMinusOne : Obligations.ChipMapIsTwiceBitMinusOne := by
  refine ⟨rfl, rfl, fun a => ?_⟩
  cases a with
  | false => rfl
  | true => rfl

section
variable {s : State} (hf : s.fault = 0#4)
include hf

/-- The failure of `CA.INIT`: the SV id is not reduced to the ROM's range (R27, R57). -/
theorem exec_caInit_of_not_mem {sv : Nat} (h : sv < 1 ∨ 32 < sv) :
    exec (.caInit sv) s = .next (raiseFault s .invalidSV) := by
  rw [exec, execCaInit, unlessFaulted_of_clear _ hf, if_pos h]

/-- The failure of `CA.NEXT`: one engine not constructed is enough (R58). -/
theorem exec_caNext_of_not_valid (h : s.engine1.v = false ∨ s.engine2.v = false) :
    exec .caNext s = .next (raiseFault s .notConfigured) := by
  have hboth : bothConfigured s = false := by rwa [bothConfigured, Bool.and_eq_false_iff]
  rw [exec, execCaNext, unlessFaulted_of_clear _ hf, hboth, if_neg Bool.false_ne_true]

end

/-- Settles O20: `CA.INIT` constructs the generator, fails or is refused, and each way is written out. -/
theorem caInitConstructsBothEngines : Obligations.CaInitConstructsBothEngines := by
  refine fun s sv => ⟨fun hf h1 h32 => ?_, fun hf h => exec_caInit_of_not_mem hf h,
    fun hf => meaningsRefuseWhileFaulted _ s hf⟩
  have hword : s.seedTable[sv - 1]? = some _ := Vector.getElem?_eq_getElem (by omega)
  exact ⟨_, hword, exec_caInit_of_seed hf h1 h32 hword⟩

/-- The chip of two bits is +1 exactly when they differ (R41, R59). -/
theorem responseWord_chipOf_xor (a b : Bool) :
    responseWord statusOk (chipByte (chipOf (Bool.xor a b))) = if a ≠ b then 0x00000001#32 else 0x000000FF#32 := by
  cases a <;> cases b <;> decide

/-- Settles O21: `CA.NEXT` shifts both engines, fails or is refused; each shift is R47's formula on its own engine. -/
theorem caNextAnswersChip : Obligations.CaNextAnswersChip := by
  refine fun s => ⟨fun hf h1 h2 => ?_, fun hf h => exec_caNext_of_not_valid hf h,
    fun hf => meaningsRefuseWhileFaulted _ s hf⟩
  rw [exec_caNext_of_valid hf h1 h2, respond, responseWord_chipOf_xor, ← shifted_eq_or, ← shifted_eq_or]
  rfl

/-- Settles O30: both constructions write whole engines, from their operands and the ROM. -/
theorem constructionForgetsOldInstance : Obligations.ConstructionForgetsOldInstance := by
  refine fun s t hs ht htable => ⟨fun sv h1 h32 => ?_, fun e seed taps => ?_⟩
  · have hword : s.seedTable[sv - 1]? = some _ := Vector.getElem?_eq_getElem (by omega)
    exact ⟨_, _, exec_caInit_of_seed hs h1 h32 hword, exec_caInit_of_seed ht h1 h32 (htable ▸ hword), rfl, rfl⟩
  · exact ⟨_, _, exec_lfsrLoad_ten hs e seed taps, exec_lfsrLoad_ten ht e seed taps, by simp⟩

end Sys2Proof.Machine

/-! PROOFS. A raw `LFSR.STEP` among the pulls of a generator (R61, R76). -/

namespace Sys2Proof.Machine

/-- One raw pull of engine 1 moves its part of every later chip on by one (R50, R76). -/
theorem combinedChip_pulled_one (s : State) (k : Nat) :
    combinedChip (pulled s .lfsr1 1) k =
      chipOf (Bool.xor (outSeq s.engine1.r s.engine1.m (k + 1)) (outSeq s.engine2.r s.engine2.m k)) := by
  rw [outSeq_shifted]
  rfl

/-- Settles O44: the raw pull answers the rear bit of the seed, and the chips that follow combine G1 one step on. -/
theorem rawStepShiftsG1AgainstG2 : Obligations.RawStepShiftsG1AgainstG2 := by
  intro s sv word n hf h1 h32 hword
  have hinit := exec_caInit_of_seed hf h1 h32 hword
  have hraw := execAll_lfsrPull (s := generator s word) (e := .lfsr1) hf rfl 1
  have hchips := execAll_caPull (s := pulled (generator s word) .lfsr1 1) hf rfl rfl n
  refine ⟨_, (execAll_cons _ hinit).trans ((execAll_append _ hraw).trans hchips), ?_⟩
  have hanswers : (pulled (generator s word) .lfsr1 1).responses = s.responses ++ [0x00000000#32, 0x00000001#32] := by
    have hone : (pulled (generator s word) .lfsr1 1).responses =
      (generator s word).responses ++ [bitWord (rear seedG1)] := rfl
    rw [hone, generator_responses, List.append_assoc]
    rfl
  simp only [chipsPulled, hanswers, combinedChip_pulled_one]
  rfl

end Sys2Proof.Machine

/-! PROOFS. Commands that wait in the queue of a block run one after the other as `execAll` runs them (R30, R82), so two
blocks given the same SV answer the same chips (R70). -/

namespace Sys2Proof.Machine

/-- An outcome with other inputs pending. -/
def withInputs (q : List Input) : Host.Outcome State Fault Refusal → Host.Outcome State Fault Refusal
  | .next t => .next { t with inputs := q }
  | .fault f => .fault f
  | .refused x => .refused x

section
variable (s : State) (q : List Input)

theorem setEngine_with_inputs (e : EngineId) (g : Engine) :
    ({ s with inputs := q } : State).setEngine e g = { s.setEngine e g with inputs := q } := by cases e <;> rfl

/-- The sticky check neither reads nor writes the pending inputs (R66). -/
theorem unlessFaulted_with_inputs (go : Host.Outcome State Fault Refusal) :
    unlessFaulted { s with inputs := q } (withInputs q go) = withInputs q (unlessFaulted s go) := by
  rcases unlessFaulted_cases s go with ⟨hf, hx⟩ | ⟨hf, hx⟩
  · rw [hx]
    exact unlessFaulted_of_faulted (s := { s with inputs := q }) _ hf
  · rw [hx]
    exact unlessFaulted_of_clear (s := { s with inputs := q }) _ hf

/-- No command reads or writes the pending inputs (R48, R49, R57, R58). -/
theorem exec_with_inputs (i : Instr) : exec i { s with inputs := q } = withInputs q (exec i s) := by
  cases i with
  | lfsrLoad e slen tlen seed taps =>
    rw [exec, execLfsrLoad, exec, execLfsrLoad, ← unlessFaulted_with_inputs, apply_ite (withInputs q),
      setEngine_with_inputs]
    rfl
  | lfsrStep e =>
    rw [exec, execLfsrStep, exec, execLfsrStep, ← unlessFaulted_with_inputs, apply_ite (withInputs q), stepEngine,
      stepOutput, engine_with_inputs, setEngine_with_inputs]
    rfl
  | caInit sv =>
    have hrom : romRead { s with inputs := q } sv = romRead s sv := rfl
    rw [exec, execCaInit, exec, execCaInit, ← unlessFaulted_with_inputs, apply_ite (withInputs q), hrom]
    cases romRead s sv with
    | none => rfl
    | some word => rfl
  | caNext =>
    rw [exec, execCaNext, exec, execCaNext, ← unlessFaulted_with_inputs, apply_ite (withInputs q)]
    rfl

end

/-- The words of a list of commands, as they wait in a queue (R35 to R38). -/
def commandWords (is : List Instr) : List Input := is.map fun i => .command (encode i)

/-- A block that has the words of a list of commands before it runs the list, one step a command (R30, R82). -/
theorem run_commandWords {is : List Instr} {s t : State} {rest : List Input} (hwf : ∀ i ∈ is, i.wellFormed = true)
    (hin : s.inputs = commandWords is ++ rest) (h : execAll is { s with inputs := rest } = .next t) :
    Sys2Proof.core.run is.length s = .next t := by
  induction is generalizing s with
  | nil =>
    obtain rfl : s.inputs = rest := hin
    exact h
  | cons i is ih =>
    obtain ⟨hi, his⟩ := List.forall_mem_cons.mp hwf
    obtain ⟨u, hu, hrest, -⟩ := exec_answers_once i { s with inputs := rest }
    have hstep : step s = .next { u with inputs := commandWords is ++ rest } := by
      rw [stepRunsDecodedCommand s _ (commandWords is ++ rest) i hin (decodeInvertsEncode i hi)]
      exact (exec_with_inputs { s with inputs := rest } _ i).trans (congrArg _ hu)
    rw [execAll_cons _ hu] at h
    rw [List.length_cons, run_of_step _ hstep]
    obtain rfl : u.inputs = rest := hrest
    exact ih his rfl h

/-- The word of `CA.INIT`: the SV id stands in the low bits of the operation's word (R37). -/
theorem encode_caInit_eq_or {sv : Nat} (h : sv ≤ 255) :
    encode (.caInit sv) = 0x60000000#32 ||| BitVec.ofNat 32 sv := by
  have hor : 0x60000000 + sv = 0x60000000 ||| sv := Nat.two_pow_add_eq_or_of_lt (i := 8) (by omega) 0x600000
  rw [encode_caInit h, hor, BitVec.ofNat_or]

/-- A block given one SV id and `n` pulls answers the SV's first `n` chips, whatever it held (R57, R58, R60). -/
theorem run_caCodeGen_caPull {s : State} {sv n : Nat} {word : Reg} {rest : List Input} (hf : s.fault = 0#4)
    (h1 : 1 ≤ sv) (h32 : sv ≤ 32) (hword : s.seedTable[sv - 1]? = some word)
    (hin : s.inputs =
      .command (0x60000000#32 ||| BitVec.ofNat 32 sv) :: (List.replicate n (.command 0x80000000#32) ++ rest)) :
    Sys2Proof.core.run (n + 1) s = .next
      { s with
        engine1 := { r := stateSeq 0x3FF#10 0x081#10 n, m := 0x081#10, v := true }
        engine2 := { r := stateSeq word 0x197#10 n, m := 0x197#10, v := true }
        inputs := rest
        responses := s.responses ++ [0x00000000#32] ++ (List.range n).map fun k => chipWord (chipSeq word k) } := by
  have hlen : (expand (.caCodeGen sv) ++ expand (.caPull n)).length = n + 1 := by simp [expand]
  have hwf : ∀ i ∈ expand (.caCodeGen sv) ++ expand (.caPull n), i.wellFormed = true := by
    have hsv : sv ≤ 255 := by omega
    simp [expand, Instr.wellFormed, hsv]
  have hwords : s.inputs = commandWords (expand (.caCodeGen sv) ++ expand (.caPull n)) ++ rest := by
    rw [hin, ← encode_caInit_eq_or (by omega), expand, expand, commandWords, List.map_append, List.map_replicate]
    rfl
  rw [← hlen]
  exact run_commandWords hwf hwords
    (pulledChipsFollowChipSequence { s with inputs := rest } sv word n hf h1 h32 hword)

/-- Settles O48: each block ends as its own run alone leaves it, and both runs answer the chips of the one ROM word. -/
theorem sameSvGivesSameChipsOnTwoBlocks : Obligations.SameSvGivesSameChipsOnTwoBlocks := by
  intro schedule sys j k s t sv n word restS restT hs ht hfs hft h1 h32 hword hinS hinT hj hk
  have hruns := run_caCodeGen_caPull hfs h1 h32 (by rwa [seedTable_of_blockAt hs]) hinS
  have hrunt := run_caCodeGen_caPull hft h1 h32 (by rwa [seedTable_of_blockAt ht]) hinT
  obtain ⟨out, s', hout, hs', hats⟩ := blocksRunAsIfAlone schedule sys j s hs
  obtain ⟨out', t', hout', ht', hatt⟩ := blocksRunAsIfAlone schedule sys k t ht
  obtain rfl := Host.Outcome.next.inj (hout.symm.trans hout')
  rw [hj, hruns] at hs'
  rw [hk, hrunt] at ht'
  obtain rfl := Host.Outcome.next.inj hs'
  obtain rfl := Host.Outcome.next.inj ht'
  exact ⟨out, _, _, hout, hats, hatt, rfl, rfl, rfl, rfl⟩

end Sys2Proof.Machine

/-! PROOFS. The checks of a command word in the order of R67: what each reads from the raw bits, and which outcome the first
that fails decides (R40, R63, R65, R66). -/

namespace Sys2Proof.Machine

/-- Settles O7: a step takes an input only when one is pending. -/
theorem idleBlockHoldsItsState : Obligations.IdleBlockHoldsItsState := by
  intro s hidle
  rcases takeInput_cases s with ⟨-, hx⟩ | ⟨x, rest, hin, -⟩
  · exact hx
  · exact absurd (hidle.symm.trans hin) (List.cons_ne_nil x rest).symm

/-- A command word on a faulted block is not decoded (R66). -/
theorem step_of_faulted {s : State} {w : Word} {rest : List Input} (hin : s.inputs = .command w :: rest)
    (hf : s.fault ≠ 0#4) : step s = .next (refuseFaulted { s with inputs := rest }) :=
  (step_of_command hin).trans (unlessFaulted_of_faulted (s := { s with inputs := rest }) _ hf)

/-- Settles O5: the sticky check comes before the decoder, so the word does not matter. -/
theorem faultedBlockRefusesEveryCommand : Obligations.FaultedBlockRefusesEveryCommand :=
  fun s _ _ hin hf => by rw [step_of_faulted hin hf, refuseFaulted_eq]

/-! What the operand and state checks read from the raw bits is what the decoder reads (R35, R36, R39). -/

section
variable (w : Word)

/-- The two length fields together are one field of eight bits (R35). -/
theorem lengthsTen_iff : lengthsTen w = true ↔ (w >>> 24).toNat % 16 = 10 ∧ (w >>> 20).toNat % 16 = 10 := by
  have hmask : w &&& 0x0FF00000#32 = placed (w.extractLsb' 20 8) 20 := by
    apply BitVec.eq_of_getLsbD_eq
    intro b hb
    rw [getLsbD_placed_extractLsb', BitVec.getLsbD_and, Bool.and_comm]
    interval_cases b <;> rfl
  have hfield : lengthsTen w = true ↔ w.extractLsb' 20 8 = 0xAA#8 :=
    beq_iff_eq.trans ⟨fun h => extractLsb'_of_masked 20 8 h (by decide), fun h => by rw [hmask, h]; rfl⟩
  rw [hfield, ← BitVec.toNat_inj, BitVec.extractLsb'_toNat, BitVec.toNat_ushiftRight, BitVec.toNat_ushiftRight]
  simp only [Nat.shiftRight_eq_div_pow, BitVec.toNat_ofNat]
  omega

theorem svOfWord_eq_mod : svOfWord w = w.toNat % 256 := Nat.and_two_pow_sub_one_eq_mod _ 8

theorem steppedEngineValid_eq (s : State) :
    steppedEngineValid w s = (s.engine (if w.getLsbD 28 then .lfsr2 else .lfsr1)).v := by
  have hmask : w &&& 0x10000000#32 = if w.getLsbD 28 then 0x10000000#32 else 0#32 := BitVec.and_twoPow w 28
  rw [steppedEngineValid, hmask]
  cases w.getLsbD 28 with
  | false => rfl
  | true => rfl

end

section
variable {s : State} {w : Word}

/-- A word of some row whose checks all pass decodes to a command that is ready (R40, R67). -/
theorem exists_ready_of_checks (hlegal : isLegalWord w = true) (hload : isLoadWord w = true → lengthsTen w = true)
    (hinit : isInitWord w = true → 1 ≤ svOfWord w ∧ svOfWord w ≤ 32)
    (hstep : isStepWord w = true → steppedEngineValid w s = true)
    (hnext : isNextWord w = true → s.engine1.v = true ∧ s.engine2.v = true) : ∃ i, decode w = .ok i ∧ Ready i s := by
  simp only [isLegalWord, Bool.or_eq_true] at hlegal
  rcases hlegal with ((h | h) | h) | h
  · exact ⟨_, decode_of_loadRow (beq_iff_eq.mp h), (lengthsTen_iff w).mp (hload h)⟩
  · exact ⟨_, decode_of_stepRow (beq_iff_eq.mp h), (ready_lfsrStep_iff _ s).mpr (steppedEngineValid_eq w s ▸ hstep h)⟩
  · exact ⟨_, decode_of_initRow (beq_iff_eq.mp h), svOfWord_eq_mod w ▸ hinit h⟩
  · exact ⟨_, decode_of_nextRow (beq_iff_eq.mp h), hnext h⟩

variable (hf : s.fault = 0#4)
include hf

theorem presentCommand_of_decode {i : Instr} (hd : decode w = .ok i) : presentCommand w s = exec i s := by
  rw [presentCommand, unlessFaulted_of_clear _ hf, hd]

theorem presentCommand_of_illegal (hlegal : isLegalWord w = false) :
    presentCommand w s = .next (raiseFault s .illegalCommand) := by
  simp only [isLegalWord, isLoadWord, isStepWord, isInitWord, isNextWord, Bool.or_eq_false_iff, beq_eq_false_iff_ne]
    at hlegal
  obtain ⟨⟨⟨hload, hstep⟩, hinit⟩, hnext⟩ := hlegal
  obtain ⟨why, hd⟩ := decode_eq_error_of_no_row hload hstep hinit hnext
  rw [presentCommand, unlessFaulted_of_clear _ hf, hd]

/-- Every way a command word can end on a clear block, with the status R67's order of checks gives it: it raises the cause
of that code, or it writes registers other than `FAULT` and answers `OK`. -/
theorem presentCommand_cases :
    (∃ c, presentCommand w s = .next (raiseFault s c) ∧ checkedStatus w s = causeCode c) ∨
    ∃ (u : State) (d : BitVec 8), presentCommand w s = .next (respond u statusOk d) ∧
      checkedStatus w s = statusOk ∧ u.fault = 0#4 ∧ u.responses = s.responses := by
  rw [checkedStatus, if_neg (not_not_intro hf)]
  split_ifs with hlegal hload hinit hstep hnext
  · exact .inl ⟨_, presentCommand_of_illegal hf hlegal, rfl⟩
  · obtain ⟨hrow, hlengths⟩ := hload
    rw [← Bool.not_eq_true, lengthsTen_iff, not_and_or] at hlengths
    exact .inl ⟨_, (presentCommand_of_decode hf (decode_of_loadRow (beq_iff_eq.mp hrow))).trans
      (exec_lfsrLoad_of_ne hf hlengths _ _ _), rfl⟩
  · obtain ⟨hrow, hrange⟩ := hinit
    rw [svOfWord_eq_mod] at hrange
    exact .inl ⟨_, (presentCommand_of_decode hf (decode_of_initRow (beq_iff_eq.mp hrow))).trans
      (exec_caInit_of_not_mem hf (by omega)), rfl⟩
  · obtain ⟨hrow, hv⟩ := hstep
    rw [steppedEngineValid_eq] at hv
    exact .inl ⟨_, (presentCommand_of_decode hf (decode_of_stepRow (beq_iff_eq.mp hrow))).trans
      (exec_lfsrStep_of_not_valid hf hv), rfl⟩
  · obtain ⟨hrow, hboth⟩ := hnext
    rw [not_and_or, Bool.not_eq_true, Bool.not_eq_true] at hboth
    exact .inl ⟨_, (presentCommand_of_decode hf (decode_of_nextRow (beq_iff_eq.mp hrow))).trans
      (exec_caNext_of_not_valid hf hboth), rfl⟩
  · obtain ⟨i, hd, hready⟩ := exists_ready_of_checks (s := s) (w := w) (by simpa using hlegal) (by simpa using hload)
      (by simpa using hinit) (by simpa using hstep) (by simpa using hnext)
    obtain ⟨u, d, hx, hu, hresponses⟩ := exec_of_ready hf hready
    exact .inr ⟨u, d, (presentCommand_of_decode hf hd).trans hx, rfl, hu, hresponses⟩

end

/-- Settles O25: a raised cause writes `FAULT` and the response alone, and every other way to end leaves `FAULT` 0. -/
theorem faultingCommandWritesOnlyFault : Obligations.FaultingCommandWritesOnlyFault := by
  intro s w rest hin hf
  have hcode (c : Cause) : (causeCode c).toNat ≤ 4 := by cases c <;> decide
  rw [step_of_command hin]
  rcases presentCommand_cases (s := { s with inputs := rest }) (w := w) hf with ⟨c, hx, -⟩ | ⟨u, d, hx, -, hu, -⟩
  · exact ⟨_, hx, hcode c, fun _ => by rw [raiseFault, respond, responseWord_cause]⟩
  · exact ⟨_, hx, hu ▸ Nat.zero_le 4, fun hne => absurd hu hne⟩

/-- Settles O26: the sticky check decides on a faulted block; on a clear one the raised cause or `OK` is the status that
the order of checks gives. -/
theorem firstFailedCheckDecidesStatus : Obligations.FirstFailedCheckDecidesStatus := by
  intro s w rest hin
  by_cases hf : s.fault = 0#4
  · rw [step_of_command hin, if_neg (not_not_intro hf)]
    rcases presentCommand_cases (s := { s with inputs := rest }) (w := w) hf with
      ⟨c, hx, hst⟩ | ⟨u, d, hx, hst, hu, hresponses⟩
    · have hst' : checkedStatus w s = causeCode c := hst
      exact ⟨_, 0#8, hx, by rw [hst']; rfl, hst'.symm⟩
    · have hst' : checkedStatus w s = statusOk := hst
      exact ⟨_, d, hx, by rw [hst', respond_responses, hresponses]; rfl, by rw [hst']; exact hu⟩
  · rw [checkedStatus, if_pos hf, if_pos hf]
    exact ⟨_, s.fault.setWidth 8, step_of_faulted hin hf, rfl, rfl⟩

end Sys2Proof.Machine

/-! PROOFS. The `RESET` event clears the block, and a command word clears neither a fault nor a valid flag (R14, R68,
R74). -/

namespace Sys2Proof.Machine

/-- A step of an engine writes no valid flag, neither its own nor the other engine's (R14, R47). -/
@[simp] theorem valid_stepEngine (s : State) (e e' : EngineId) : ((stepEngine s e').engine e).v = (s.engine e).v := by
  by_cases h : e = e'
  · subst h
    rw [engine_stepEngine_self]
  · rw [engine_stepEngine_of_ne s e' e h]

section
variable {s : State} {e : EngineId} (hv : (s.engine e).v = true)
include hv

/-- A construction, of whichever engine, clears no valid flag (R14). -/
theorem valid_setEngine (e' : EngineId) {g : Engine} (hg : g.v = true) : ((s.setEngine e' g).engine e).v = true := by
  by_cases h : e = e'
  · subst h
    rw [engine_setEngine_self, hg]
  · rw [engine_setEngine_of_ne s e' e g h, hv]

/-- Every command keeps every valid flag that is set: it writes no engine, constructs engines, or shifts them (R14). -/
theorem exec_keeps_valid {i : Instr} {t : State} (ht : exec i s = .next t) : (t.engine e).v = true := by
  by_cases hf : s.fault = 0#4
  · rcases exec_cases i s hf with ⟨c, hx⟩ | ⟨e', seed, taps, -, hx⟩ | ⟨e', -, -, hx⟩ |
        ⟨sv, word, -, -, -, -, hx⟩ | ⟨-, -, -, hx⟩ <;>
      obtain rfl := Host.Outcome.next.inj (hx.symm.trans ht)
    · rw [raiseFault_engine, hv]
    · rw [respond_engine, valid_setEngine hv e' rfl]
    · rw [respond_engine, valid_stepEngine, hv]
    · rw [respond_engine, valid_setEngine (valid_setEngine hv .lfsr1 rfl) .lfsr2 rfl]
    · rw [respond_engine, valid_stepEngine, valid_stepEngine, hv]
  · obtain rfl := Host.Outcome.next.inj ((exec_of_faulted i s hf).symm.trans ht)
    rw [refuseFaulted_engine, hv]

/-- Every command word, refused, illegal or decoded, keeps every valid flag that is set (R14). -/
theorem presentCommand_keeps_valid {w : Word} {t : State} (ht : presentCommand w s = .next t) :
    (t.engine e).v = true := by
  rw [presentCommand] at ht
  by_cases hf : s.fault = 0#4
  · rw [unlessFaulted_of_clear _ hf] at ht
    split at ht
    next =>
      obtain rfl := Host.Outcome.next.inj ht
      rw [raiseFault_engine, hv]
    next => exact exec_keeps_valid hv ht
  · obtain rfl := Host.Outcome.next.inj ((unlessFaulted_of_faulted _ hf).symm.trans ht)
    rw [refuseFaulted_engine, hv]

end

section
variable {s : State} {rest : List Input}

/-- The `RESET` event, once it is the oldest input (R74, R82). -/
theorem step_of_reset (hin : s.inputs = .reset :: rest) : step s = .next (resetEvent { s with inputs := rest }) := by
  simp only [step, takeInput, hin, present]

variable {w : Word} (hin : s.inputs = .command w :: rest) {t : State} (ht : step s = .next t)
include hin ht

/-- A recorded fault stays: the command word is refused (R66, R68). -/
theorem step_keeps_fault (hf : s.fault ≠ 0#4) : t.fault = s.fault := by
  obtain rfl := Host.Outcome.next.inj ((step_of_faulted hin hf).symm.trans ht)
  rfl

theorem step_keeps_valid {e : EngineId} (hv : (s.engine e).v = true) : (t.engine e).v = true :=
  presentCommand_keeps_valid (s := { s with inputs := rest }) (by rwa [engine_with_inputs])
    ((step_of_command hin).symm.trans ht)

end

/-- Settles O2: `RESET` writes all seven registers with their values at reset; on a command word a recorded fault brings
the refusal, which writes no register, and no operation of a command clears a valid flag. -/
theorem onlyResetClearsTheBlock : Obligations.OnlyResetClearsTheBlock :=
  ⟨fun _ _ hin => step_of_reset hin, ⟨rfl, rfl, rfl⟩, fun _ _ _ _ hin ht =>
    ⟨step_keeps_fault hin ht, step_keeps_valid hin ht (e := .lfsr1), step_keeps_valid hin ht (e := .lfsr2)⟩⟩

end Sys2Proof.Machine
